-- ==== Sys2Proof/Word.lean ====
section
/-! DEFINITION. The two word types of the hardware: a memory datum (`DATA_W` = 8 bits) and an address or Register cell
(`ADDR_W` = `REG_CAP` = 16 bits), `00_scope.md` R4. -/

namespace Sys2Proof

/-- A memory datum, an opcode byte, an operand byte: 8 bits (R4 `DATA_W`, R40). -/
abbrev Byte := BitVec 8

/-- A Register cell, an address, a raw operand: 16 bits (R4 `REG_CAP`, `ADDR_W`; R10, R28). -/
abbrev Word := BitVec 16

end Sys2Proof
end

