-- ==== Sys2Proof/Machine/Memory.lean ====
section
/-! DEFINITION. Memory as plain data: one address space of 16-bit addresses, one byte at each (`20_memory.md` R40, R46), held as
a list of (address, byte) cells in one canonical form. What an unlisted address reads as is `Memory.unlisted` (log entry 2). -/

namespace Sys2Proof.Machine

/-- The contents of memory: the cells whose byte differs from `Memory.unlisted`, by strictly rising address. -/
abbrev Memory := List Host.Cell

/-- What an address that no cell lists reads as. DESIGN CHOICE (log entry 2): `MEM_INIT` is OPEN (R4); every total contents
0 to 0xFFFF has exactly one canonical list over this byte, so only the contents of `State.reset` rest on it. -/
def Memory.unlisted : Byte := 0x00#8

/-- The byte at an address: "a read returns the value last written (or the initial value)" (R46). -/
def Memory.read : Memory → Nat → Byte
  | [], _ => Memory.unlisted
  | (k, v) :: m, a => if a = k then v else Memory.read m a

/-- One cell in front of a list, left out when its byte is what an unlisted address reads as anyway. -/
def Memory.cons (a : Nat) (v : Byte) (m : Memory) : Memory :=
  if v = Memory.unlisted then m else (a, v) :: m

/-- Write one byte, keeping the canonical form (R46: memory is "changed only by a successful `MemWrite`"). -/
def Memory.write : Memory → Nat → Byte → Memory
  | [], a, v => Memory.cons a v []
  | (k, w) :: m, a, v =>
    if a < k then Memory.cons a v ((k, w) :: m)
    else if a = k then Memory.cons a v m
    else (k, w) :: Memory.write m a v

/-- The cells are at addresses from `lo` up to 0xFFFF, strictly rising, and none holds what an unlisted address reads as. -/
def Memory.wfFrom : Nat → Memory → Bool
  | _, [] => true
  | lo, (k, v) :: m => decide (lo ≤ k ∧ k ≤ 0xFFFF ∧ v ≠ Memory.unlisted) && Memory.wfFrom (k + 1) m

/-- The canonical form of a memory, inside the address space 0 to 0xFFFF (R40). -/
def Memory.wf (m : Memory) : Bool := Memory.wfFrom 0 m

end Sys2Proof.Machine
end

