-- ==== Sys2Proof/Syntax.lean ====
section
/-! DEFINITION. The syntax of JN6502: the closed sets of instruction kinds and addressing-mode kinds (`00_scope.md` R7), the
entry of an opcode-table slot (`10_state.md` R29), and `Instr`, one constructor per supported (kind, mode) pair of
`40_step_and_addressing.md` R85: the 42 rows of `opcode_table.json` and the pair (JMP, Relative), which R130 defines and which
has no byte in the default table (C7, log entry 14). -/

namespace Sys2Proof

/-- AddressingModeKind: "the closed set of mode names" (R7, D3). -/
inductive AddressingModeKind where
  | implied
  | accumulator
  | immediate
  | zeroPage
  | zeroPageX
  | absolute
  | absoluteX
  | absoluteY
  | indirectX
  | indirectY
  | relative
deriving DecidableEq, Repr

/-- InstructionKind: the 16 kinds that have a handler, and `Other(name)`, "a name a platform's table may hold that has no
handler" (R7, D2). -/
inductive InstructionKind where
  | adc
  | asl
  | bcc
  | bcs
  | beq
  | bit
  | bne
  | clc
  | jmp
  | jsr
  | lda
  | ldx
  | nop
  | sec
  | sta
  | stx
  | other (name : String)
deriving DecidableEq, Repr

/-- OperationCode: "the immutable triple (raw byte, instruction kind, addressing-mode kind)" of one populated slot (R29). -/
structure OperationCode where
  rawByte : Byte
  kind : InstructionKind
  mode : AddressingModeKind
deriving DecidableEq, Repr

/-- The instructions: one constructor per supported (kind, mode) pair (R85), carrying the raw operand as its bytes give it:
nothing in format F1, 8 bits in F2, 16 bits in F3 (R60, R62). -/
inductive Instr where
  /-- ADC, add with carry, Immediate (R110). -/
  | adcImmediate (op : Byte)
  /-- ADC, add with carry, ZeroPage (R110). -/
  | adcZeroPage (op : Byte)
  /-- ADC, add with carry, ZeroPageX (R110). -/
  | adcZeroPageX (op : Byte)
  /-- ADC, add with carry, Absolute (R110). -/
  | adcAbsolute (op : Word)
  /-- ADC, add with carry, AbsoluteX (R110). -/
  | adcAbsoluteX (op : Word)
  /-- ADC, add with carry, AbsoluteY (R110). -/
  | adcAbsoluteY (op : Word)
  /-- ADC, add with carry, IndirectX (R110). -/
  | adcIndirectX (op : Byte)
  /-- ADC, add with carry, IndirectY (R110). -/
  | adcIndirectY (op : Byte)
  /-- ASL, arithmetic shift left, Accumulator (R112). -/
  | aslAccumulator
  /-- ASL, arithmetic shift left, ZeroPage (R112). -/
  | aslZeroPage (op : Byte)
  /-- ASL, arithmetic shift left, ZeroPageX (R112). -/
  | aslZeroPageX (op : Byte)
  /-- ASL, arithmetic shift left, Absolute (R112). -/
  | aslAbsolute (op : Word)
  /-- ASL, arithmetic shift left, AbsoluteX (R112). -/
  | aslAbsoluteX (op : Word)
  /-- BCC, branch if carry clear, Relative (R134). -/
  | bcc (op : Byte)
  /-- BCS, branch if carry set, Relative (R133). -/
  | bcs (op : Byte)
  /-- BEQ, branch if zero set, Relative (R135). -/
  | beq (op : Byte)
  /-- BIT, test bits, ZeroPage (R111). -/
  | bitZeroPage (op : Byte)
  /-- BIT, test bits, Absolute (R111). -/
  | bitAbsolute (op : Word)
  /-- BNE, branch if zero clear, Relative (R136). -/
  | bne (op : Byte)
  /-- CLC, clear carry, Implied (R140). -/
  | clc
  /-- JMP, jump, Absolute (R130). -/
  | jmpAbsolute (op : Word)
  /-- JMP, jump, Relative (R130). -/
  | jmpRelative (op : Byte)
  /-- JSR, jump to subroutine, Absolute (R131). -/
  | jsr (op : Word)
  /-- LDA, load accumulator, Immediate (R120). -/
  | ldaImmediate (op : Byte)
  /-- LDA, load accumulator, ZeroPage (R120). -/
  | ldaZeroPage (op : Byte)
  /-- LDA, load accumulator, ZeroPageX (R120). -/
  | ldaZeroPageX (op : Byte)
  /-- LDA, load accumulator, Absolute (R120). -/
  | ldaAbsolute (op : Word)
  /-- LDA, load accumulator, AbsoluteX (R120). -/
  | ldaAbsoluteX (op : Word)
  /-- LDA, load accumulator, AbsoluteY (R120). -/
  | ldaAbsoluteY (op : Word)
  /-- LDA, load accumulator, IndirectX (R120). -/
  | ldaIndirectX (op : Byte)
  /-- LDA, load accumulator, IndirectY (R120). -/
  | ldaIndirectY (op : Byte)
  /-- LDX, load index X, Immediate (R121). -/
  | ldx (op : Byte)
  /-- NOP, no operation, Implied (R142). -/
  | nop
  /-- SEC, set carry, Implied (R141). -/
  | sec
  /-- STA, store accumulator, ZeroPage (R122). -/
  | staZeroPage (op : Byte)
  /-- STA, store accumulator, ZeroPageX (R122). -/
  | staZeroPageX (op : Byte)
  /-- STA, store accumulator, Absolute (R122). -/
  | staAbsolute (op : Word)
  /-- STA, store accumulator, AbsoluteX (R122). -/
  | staAbsoluteX (op : Word)
  /-- STA, store accumulator, AbsoluteY (R122). -/
  | staAbsoluteY (op : Word)
  /-- STA, store accumulator, IndirectX (R122). -/
  | staIndirectX (op : Byte)
  /-- STA, store accumulator, IndirectY (R122). -/
  | staIndirectY (op : Byte)
  /-- STX, store index X, ZeroPage (R123). -/
  | stxZeroPage (op : Byte)
  /-- STX, store index X, Absolute (R123). -/
  | stxAbsolute (op : Word)
deriving DecidableEq, Repr

end Sys2Proof
end

