-- ==== Sys2Proof/Config.lean ====
section
/-! DEFINITION. What is fixed for a machine and what its launch supplies: the OPEN parameters of `00_scope.md` R4 as plain data.
`Config` holds those that "never change during a run" (R9); `LaunchParams` holds "the launch state" (R9, `10_state.md` R30). Both
are arguments, never constants: `State.cfg` carries the first, `State.launch` takes the second, so that a statement about every
state holds for every value of every OPEN parameter (log entry 3). The spec's defaults stand in `Decode.lean` (the table) and
`Machine/State.lean` (the rest). -/

namespace Sys2Proof

/-- The opcode table `OPTABLE`: "a fixed-size (256-slot) mapping from opcode byte to `Option<OperationCode>`" (R29), held as
its populated slots; a slot that no entry's raw byte names is unpopulated. -/
abbrev OpTable := List OperationCode

/-- An inclusive range of addresses. -/
structure AddrRange where
  lo : Nat
  hi : Nat
deriving DecidableEq, Repr

/-- The configuration of one machine (R9): it never changes during a run. -/
structure Config where
  /-- `OPTABLE` (R29, R64, R65). -/
  opTable : OpTable
  /-- `STACK_BASE`: "address added to SP to form a stack address" (R4, R16). -/
  stackBase : Word
  /-- The addresses where `MEM_READABLE` is false (R4, R41), as ranges. -/
  unreadable : List AddrRange
  /-- The addresses where `MEM_WRITABLE` is false (R4, R42), as ranges. -/
  unwritable : List AddrRange
  /-- `HALT_PC`: "optional address at which the scheduler stops calling the step" (R4, R195). -/
  haltPc : Option Word
deriving DecidableEq, Repr

/-- The launch parameters `A_RESET`, `X_RESET`, `Y_RESET`, `SP_RESET`, `PC_RESET`, `P_RESET`, `MEM_INIT` (R4, R30). -/
structure LaunchParams where
  aReset : Word
  xReset : Word
  yReset : Word
  spReset : Word
  pcReset : Word
  pReset : Byte
  memInit : Machine.Memory
deriving DecidableEq, Repr

end Sys2Proof
end

