-- ==== Sys2Proof/Decode.lean ====
section
/-! DEFINITION. Encoding (`30_encoding.md`): what an opcode byte selects, how long an instruction is, how the raw operand is
assembled, the default table `DEFAULT_OPTABLE`, the decoder (total on any bytes, rejecting by name) and the encoder. Decoding is
one table lookup (R63) followed by the operand bytes of the entry's mode (R61, R62) and the selection of the instruction of the
pair (R85, R86). -/

namespace Sys2Proof

/-! ### The three coordinates of an instruction -/

/-- The instruction kind of an instruction (R63). -/
def Instr.kind : Instr → InstructionKind
  | .adcImmediate _ => .adc
  | .adcZeroPage _ => .adc
  | .adcZeroPageX _ => .adc
  | .adcAbsolute _ => .adc
  | .adcAbsoluteX _ => .adc
  | .adcAbsoluteY _ => .adc
  | .adcIndirectX _ => .adc
  | .adcIndirectY _ => .adc
  | .aslAccumulator => .asl
  | .aslZeroPage _ => .asl
  | .aslZeroPageX _ => .asl
  | .aslAbsolute _ => .asl
  | .aslAbsoluteX _ => .asl
  | .bcc _ => .bcc
  | .bcs _ => .bcs
  | .beq _ => .beq
  | .bitZeroPage _ => .bit
  | .bitAbsolute _ => .bit
  | .bne _ => .bne
  | .clc => .clc
  | .jmpAbsolute _ => .jmp
  | .jmpRelative _ => .jmp
  | .jsr _ => .jsr
  | .ldaImmediate _ => .lda
  | .ldaZeroPage _ => .lda
  | .ldaZeroPageX _ => .lda
  | .ldaAbsolute _ => .lda
  | .ldaAbsoluteX _ => .lda
  | .ldaAbsoluteY _ => .lda
  | .ldaIndirectX _ => .lda
  | .ldaIndirectY _ => .lda
  | .ldx _ => .ldx
  | .nop => .nop
  | .sec => .sec
  | .staZeroPage _ => .sta
  | .staZeroPageX _ => .sta
  | .staAbsolute _ => .sta
  | .staAbsoluteX _ => .sta
  | .staAbsoluteY _ => .sta
  | .staIndirectX _ => .sta
  | .staIndirectY _ => .sta
  | .stxZeroPage _ => .stx
  | .stxAbsolute _ => .stx

/-- The addressing-mode kind of an instruction (R63). -/
def Instr.mode : Instr → AddressingModeKind
  | .adcImmediate _ => .immediate
  | .adcZeroPage _ => .zeroPage
  | .adcZeroPageX _ => .zeroPageX
  | .adcAbsolute _ => .absolute
  | .adcAbsoluteX _ => .absoluteX
  | .adcAbsoluteY _ => .absoluteY
  | .adcIndirectX _ => .indirectX
  | .adcIndirectY _ => .indirectY
  | .aslAccumulator => .accumulator
  | .aslZeroPage _ => .zeroPage
  | .aslZeroPageX _ => .zeroPageX
  | .aslAbsolute _ => .absolute
  | .aslAbsoluteX _ => .absoluteX
  | .bcc _ => .relative
  | .bcs _ => .relative
  | .beq _ => .relative
  | .bitZeroPage _ => .zeroPage
  | .bitAbsolute _ => .absolute
  | .bne _ => .relative
  | .clc => .implied
  | .jmpAbsolute _ => .absolute
  | .jmpRelative _ => .relative
  | .jsr _ => .absolute
  | .ldaImmediate _ => .immediate
  | .ldaZeroPage _ => .zeroPage
  | .ldaZeroPageX _ => .zeroPageX
  | .ldaAbsolute _ => .absolute
  | .ldaAbsoluteX _ => .absoluteX
  | .ldaAbsoluteY _ => .absoluteY
  | .ldaIndirectX _ => .indirectX
  | .ldaIndirectY _ => .indirectY
  | .ldx _ => .immediate
  | .nop => .implied
  | .sec => .implied
  | .staZeroPage _ => .zeroPage
  | .staZeroPageX _ => .zeroPageX
  | .staAbsolute _ => .absolute
  | .staAbsoluteX _ => .absoluteX
  | .staAbsoluteY _ => .absoluteY
  | .staIndirectX _ => .indirectX
  | .staIndirectY _ => .indirectY
  | .stxZeroPage _ => .zeroPage
  | .stxAbsolute _ => .absolute

/-- The raw operand of an instruction (R62): 0 in format F1, the operand byte zero-extended in F2, both bytes in F3. -/
def Instr.operand : Instr → Word
  | .adcImmediate op => op.setWidth 16
  | .adcZeroPage op => op.setWidth 16
  | .adcZeroPageX op => op.setWidth 16
  | .adcAbsolute op => op
  | .adcAbsoluteX op => op
  | .adcAbsoluteY op => op
  | .adcIndirectX op => op.setWidth 16
  | .adcIndirectY op => op.setWidth 16
  | .aslAccumulator => 0#16
  | .aslZeroPage op => op.setWidth 16
  | .aslZeroPageX op => op.setWidth 16
  | .aslAbsolute op => op
  | .aslAbsoluteX op => op
  | .bcc op => op.setWidth 16
  | .bcs op => op.setWidth 16
  | .beq op => op.setWidth 16
  | .bitZeroPage op => op.setWidth 16
  | .bitAbsolute op => op
  | .bne op => op.setWidth 16
  | .clc => 0#16
  | .jmpAbsolute op => op
  | .jmpRelative op => op.setWidth 16
  | .jsr op => op
  | .ldaImmediate op => op.setWidth 16
  | .ldaZeroPage op => op.setWidth 16
  | .ldaZeroPageX op => op.setWidth 16
  | .ldaAbsolute op => op
  | .ldaAbsoluteX op => op
  | .ldaAbsoluteY op => op
  | .ldaIndirectX op => op.setWidth 16
  | .ldaIndirectY op => op.setWidth 16
  | .ldx op => op.setWidth 16
  | .nop => 0#16
  | .sec => 0#16
  | .staZeroPage op => op.setWidth 16
  | .staZeroPageX op => op.setWidth 16
  | .staAbsolute op => op
  | .staAbsoluteX op => op
  | .staAbsoluteY op => op
  | .staIndirectX op => op.setWidth 16
  | .staIndirectY op => op.setWidth 16
  | .stxZeroPage op => op.setWidth 16
  | .stxAbsolute op => op

/-! ### Lengths and operand bytes -/

/-- `OperandLength(mode)` (R61): the number of operand bytes is a function of the mode alone. -/
def operandLength : AddressingModeKind → Nat
  | .implied | .accumulator => 0
  | .immediate | .zeroPage | .zeroPageX | .indirectX | .indirectY | .relative => 1
  | .absolute | .absoluteX | .absoluteY => 2

/-- The modes for which `EffAddr` is defined (R103): the memory modes. -/
def AddressingModeKind.hasAddr : AddressingModeKind → Bool
  | .zeroPage | .zeroPageX | .absolute | .absoluteX | .absoluteY | .indirectX | .indirectY => true
  | .implied | .accumulator | .immediate | .relative => false

/-- The length of an instruction in bytes: the opcode byte and the operand bytes (R60, R61). -/
def Instr.length (i : Instr) : Nat := 1 + operandLength i.mode

/-- `hi || lo`: the byte at the lower address is the low byte (R43, R62). -/
def wordOfBytes (lo hi : Byte) : Word := hi ++ lo

/-- The low byte of a word, `v[7:0]` (R5, R17). -/
def lowByte (w : Word) : Byte := w.setWidth 8

/-- The high byte of a word, `v[15:8]` (R5, R17). -/
def highByte (w : Word) : Byte := (w >>> 8).setWidth 8

/-- The operand bytes of a raw operand in an instruction with `n` of them, low byte first (R60, R62). -/
def operandBytes : Nat → Word → List Byte
  | 0, _ => []
  | 1, op => [lowByte op]
  | _, op => [lowByte op, highByte op]

/-- The raw operand assembled from `n` operand bytes, and the bytes after them; none where there are too few (R62). -/
def takeOperand : Nat → List Byte → Option (Word × List Byte)
  | 0, bs => some (0#16, bs)
  | 1, lo :: bs => some (lo.setWidth 16, bs)
  | _, lo :: hi :: bs => some (wordOfBytes lo hi, bs)
  | _, _ => none

/-! ### The opcode table -/

/-- `OPTABLE[b]` (R63): the entry of slot `b`, or none where the slot is unpopulated. -/
def OpTable.lookup : OpTable → Byte → Option OperationCode
  | [], _ => none
  | e :: t, b => if e.rawByte = b then some e else OpTable.lookup t b

/-- The first byte of a table that selects a (kind, mode) pair. -/
def OpTable.byteOf : OpTable → InstructionKind → AddressingModeKind → Option Byte
  | [], _, _ => none
  | e :: t, k, m => if e.kind = k ∧ e.mode = m then some e.rawByte else OpTable.byteOf t k m

/-- `DEFAULT_OPTABLE` (R64): the 42 populated slots of the spec's default table, the bytes as R64 lists them.
UNVERIFIED (log entry 16): the spec takes them from general knowledge of the 6502 (D1, K1). OPTABLE is OPEN; which machine uses
this table is log entry 4. Every rule is keyed by (kind, mode). -/
def defaultTable : OpTable :=
  [⟨0x06#8, .asl, .zeroPage⟩,
   ⟨0x0A#8, .asl, .accumulator⟩,
   ⟨0x0E#8, .asl, .absolute⟩,
   ⟨0x16#8, .asl, .zeroPageX⟩,
   ⟨0x18#8, .clc, .implied⟩,
   ⟨0x1E#8, .asl, .absoluteX⟩,
   ⟨0x20#8, .jsr, .absolute⟩] ++
  [⟨0x24#8, .bit, .zeroPage⟩,
   ⟨0x2C#8, .bit, .absolute⟩,
   ⟨0x38#8, .sec, .implied⟩,
   ⟨0x4C#8, .jmp, .absolute⟩,
   ⟨0x61#8, .adc, .indirectX⟩,
   ⟨0x65#8, .adc, .zeroPage⟩,
   ⟨0x69#8, .adc, .immediate⟩] ++
  [⟨0x6D#8, .adc, .absolute⟩,
   ⟨0x71#8, .adc, .indirectY⟩,
   ⟨0x75#8, .adc, .zeroPageX⟩,
   ⟨0x79#8, .adc, .absoluteY⟩,
   ⟨0x7D#8, .adc, .absoluteX⟩,
   ⟨0x81#8, .sta, .indirectX⟩,
   ⟨0x85#8, .sta, .zeroPage⟩] ++
  [⟨0x86#8, .stx, .zeroPage⟩,
   ⟨0x8D#8, .sta, .absolute⟩,
   ⟨0x8E#8, .stx, .absolute⟩,
   ⟨0x90#8, .bcc, .relative⟩,
   ⟨0x91#8, .sta, .indirectY⟩,
   ⟨0x95#8, .sta, .zeroPageX⟩,
   ⟨0x99#8, .sta, .absoluteY⟩] ++
  [⟨0x9D#8, .sta, .absoluteX⟩,
   ⟨0xA1#8, .lda, .indirectX⟩,
   ⟨0xA2#8, .ldx, .immediate⟩,
   ⟨0xA5#8, .lda, .zeroPage⟩,
   ⟨0xA9#8, .lda, .immediate⟩,
   ⟨0xAD#8, .lda, .absolute⟩,
   ⟨0xB0#8, .bcs, .relative⟩] ++
  [⟨0xB1#8, .lda, .indirectY⟩,
   ⟨0xB5#8, .lda, .zeroPageX⟩,
   ⟨0xB9#8, .lda, .absoluteY⟩,
   ⟨0xBD#8, .lda, .absoluteX⟩,
   ⟨0xD0#8, .bne, .relative⟩,
   ⟨0xEA#8, .nop, .implied⟩,
   ⟨0xF0#8, .beq, .relative⟩]

/-- `Supported(kind)` (R85): the addressing modes each instruction kind accepts. -/
def supported : InstructionKind → List AddressingModeKind
  | .adc => [.immediate, .zeroPage, .zeroPageX, .absolute, .absoluteX, .absoluteY, .indirectX, .indirectY]
  | .asl => [.accumulator, .zeroPage, .zeroPageX, .absolute, .absoluteX]
  | .bcc | .bcs | .beq | .bne => [.relative]
  | .bit => [.zeroPage, .absolute]
  | .clc | .sec | .nop => [.implied]
  | .jmp => [.absolute, .relative]
  | .jsr => [.absolute]
  | .lda => [.immediate, .zeroPage, .zeroPageX, .absolute, .absoluteX, .absoluteY, .indirectX, .indirectY]
  | .ldx => [.immediate]
  | .sta => [.zeroPage, .zeroPageX, .absolute, .absoluteX, .absoluteY, .indirectX, .indirectY]
  | .stx => [.zeroPage, .absolute]
  | .other _ => []

/-- The instruction of a (kind, mode) pair and a raw operand; none for a pair outside R85. -/
def instrOf (k : InstructionKind) (m : AddressingModeKind) (op : Word) : Option Instr :=
  match k, m with
  | .adc, .immediate => some (.adcImmediate (lowByte op))
  | .adc, .zeroPage => some (.adcZeroPage (lowByte op))
  | .adc, .zeroPageX => some (.adcZeroPageX (lowByte op))
  | .adc, .absolute => some (.adcAbsolute op)
  | .adc, .absoluteX => some (.adcAbsoluteX op)
  | .adc, .absoluteY => some (.adcAbsoluteY op)
  | .adc, .indirectX => some (.adcIndirectX (lowByte op))
  | .adc, .indirectY => some (.adcIndirectY (lowByte op))
  | .asl, .accumulator => some .aslAccumulator
  | .asl, .zeroPage => some (.aslZeroPage (lowByte op))
  | .asl, .zeroPageX => some (.aslZeroPageX (lowByte op))
  | .asl, .absolute => some (.aslAbsolute op)
  | .asl, .absoluteX => some (.aslAbsoluteX op)
  | .bcc, .relative => some (.bcc (lowByte op))
  | .bcs, .relative => some (.bcs (lowByte op))
  | .beq, .relative => some (.beq (lowByte op))
  | .bit, .zeroPage => some (.bitZeroPage (lowByte op))
  | .bit, .absolute => some (.bitAbsolute op)
  | .bne, .relative => some (.bne (lowByte op))
  | .clc, .implied => some .clc
  | .jmp, .absolute => some (.jmpAbsolute op)
  | .jmp, .relative => some (.jmpRelative (lowByte op))
  | .jsr, .absolute => some (.jsr op)
  | .lda, .immediate => some (.ldaImmediate (lowByte op))
  | .lda, .zeroPage => some (.ldaZeroPage (lowByte op))
  | .lda, .zeroPageX => some (.ldaZeroPageX (lowByte op))
  | .lda, .absolute => some (.ldaAbsolute op)
  | .lda, .absoluteX => some (.ldaAbsoluteX op)
  | .lda, .absoluteY => some (.ldaAbsoluteY op)
  | .lda, .indirectX => some (.ldaIndirectX (lowByte op))
  | .lda, .indirectY => some (.ldaIndirectY (lowByte op))
  | .ldx, .immediate => some (.ldx (lowByte op))
  | .nop, .implied => some .nop
  | .sec, .implied => some .sec
  | .sta, .zeroPage => some (.staZeroPage (lowByte op))
  | .sta, .zeroPageX => some (.staZeroPageX (lowByte op))
  | .sta, .absolute => some (.staAbsolute op)
  | .sta, .absoluteX => some (.staAbsoluteX op)
  | .sta, .absoluteY => some (.staAbsoluteY op)
  | .sta, .indirectX => some (.staIndirectX (lowByte op))
  | .sta, .indirectY => some (.staIndirectY (lowByte op))
  | .stx, .zeroPage => some (.stxZeroPage (lowByte op))
  | .stx, .absolute => some (.stxAbsolute op)
  | _, _ => none

/-! ### Decoding -/

/-- Why a populated slot's pair selects no instruction, each by name (lines 10 and 11 of R80). -/
inductive SelectError where
  /-- The slot's kind is `Other(name)` (R67 class "unimplemented", R153). -/
  | unimplementedInstruction (name : String)
  /-- The slot's pair is outside R85 (R67 class "unsupported pair", R154). -/
  | unsupportedAddressingMode (kind : InstructionKind) (mode : AddressingModeKind)
deriving DecidableEq, Repr

/-- Why bytes are no instruction, each by name. -/
inductive DecodeError where
  /-- There is no opcode byte. -/
  | noBytes
  /-- The byte's slot is unpopulated (R67 class "unpopulated", R152). -/
  | unknownOperation (b : Byte)
  /-- There are fewer operand bytes than the mode takes (R61). -/
  | missingOperand
  /-- The slot's pair selects no instruction. -/
  | notSelected (e : SelectError)
deriving DecidableEq, Repr

/-- Lines 10 and 11 of the step (R80): a kind without a handler first, then a mode outside R85 (the order of R160). -/
def selectInstr (k : InstructionKind) (m : AddressingModeKind) (op : Word) : Except SelectError Instr :=
  match k with
  | .other name => .error (.unimplementedInstruction name)
  | k =>
    match instrOf k m op with
    | some i => .ok i
    | none => .error (.unsupportedAddressingMode k m)

/-- Decode the first instruction of a list of bytes under a table; the bytes after it are handed back (R61 to R63, R67). -/
def decode (t : OpTable) : List Byte → Except DecodeError (Instr × List Byte)
  | [] => .error .noBytes
  | b :: bs =>
    match t.lookup b with
    | none => .error (.unknownOperation b)
    | some e =>
      match takeOperand (operandLength e.mode) bs with
      | none => .error .missingOperand
      | some (op, rest) =>
        match selectInstr e.kind e.mode op with
        | .ok i => .ok (i, rest)
        | .error err => .error (.notSelected err)

/-! ### Encoding -/

/-- The bytes of an instruction under a table: the byte whose slot holds its (kind, mode) pair (R64), then its operand bytes,
low byte first (R60, R62); none where no slot holds the pair (with the default table: `jmpRelative` alone). -/
def encode (t : OpTable) (i : Instr) : Option (List Byte) :=
  (t.byteOf i.kind i.mode).map fun b => b :: operandBytes (operandLength i.mode) i.operand

/-! ### The opcode table's own numbering -/

/-- The three bytes of an instruction whose bits are `w`, bit 0 the least significant bit of the first byte; every bit from
`nbits` on is 0. -/
def tableWordBytes (nbits w : Nat) : List Byte :=
  let v := w % 2 ^ nbits
  [BitVec.ofNat 8 v, BitVec.ofNat 8 (v / 2 ^ 8), BitVec.ofNat 8 (v / 2 ^ 16)]

/-- The instruction the decoder reads, under `DEFAULT_OPTABLE`, from an instruction whose bits are `w` as
`opcode_table.json` numbers them. -/
def decodeTableWord (nbits w : Nat) : Option Instr :=
  match decode defaultTable (tableWordBytes nbits w) with
  | .ok (i, _) => some i
  | .error _ => none

end Sys2Proof
end

