-- ==== Sys2Proof/WellFormed.lean ====
section
/-! DEFINITION. Well-formedness of what is given to the machine from outside: the opcode table (`30_encoding.md` R65), an
instruction under a table (some byte of the table selects it, R63, R64), and the launch values (`10_state.md` R30,
`70_reset_and_hazards.md` R181). Operand ranges need no check: `Instr` carries each raw operand at its own width. -/

namespace Sys2Proof

/-- The populated slots of a table from slot `lo` on, by strictly rising raw byte. -/
def OpTable.wellFormedFrom : Nat → OpTable → Bool
  | _, [] => true
  | lo, e :: t => decide (lo ≤ e.rawByte.toNat) && OpTable.wellFormedFrom (e.rawByte.toNat + 1) t

/-- R65: a byte has at most one entry, and every populated slot's raw byte is its index (so the slots, listed by rising index,
have strictly rising raw bytes). That kinds and modes are valid (R65 c) is in the types. -/
def OpTable.wellFormed (t : OpTable) : Bool := OpTable.wellFormedFrom 0 t

/-- An instruction is well-formed under a table when a byte of the table selects its (kind, mode) pair. -/
def Instr.wellFormed (t : OpTable) (i : Instr) : Bool := (t.byteOf i.kind i.mode).isSome

/-- The launch constraints of R30 and R181: A, X, Y at most 0xFF, every stack address a 16-bit address, the memory contents in
canonical form inside the address space, the table well-formed. -/
def LaunchParams.wellFormed (c : Config) (l : LaunchParams) : Bool :=
  decide (l.aReset.toNat ≤ 0xFF) && decide (l.xReset.toNat ≤ 0xFF) && decide (l.yReset.toNat ≤ 0xFF) &&
  decide (c.stackBase.toNat + l.spReset.toNat ≤ 0xFFFF) && l.memInit.wf && c.opTable.wellFormed

end Sys2Proof
end

