-- ==== Sys2Proof/Machine/State.lean ====
section
/-! DEFINITION. The machine's state (`00_scope.md` R9, `10_state.md` R10), its errors (`60_exceptions.md` R150), and the launch
state (`10_state.md` R30). Plain data throughout. -/

namespace Sys2Proof.Machine

/-- The names of the five Register cells (R10). -/
inductive RegName where
  | a | x | y | sp | pc
deriving DecidableEq, Repr

/-- The names of the eight bits of P (R20). -/
inductive Flag where
  | c | z | i | d | b | u | v | n
deriving DecidableEq, Repr

/-- The state of one CPU instance and its memory (R9), and the configuration it runs under (R9: not state; carried here so that
every statement quantifies over it, and written by no step: log entry 3). -/
structure State where
  /-- Accumulator A, a 16-bit cell with an 8-bit value (R11). -/
  a : Word
  /-- Index X, a 16-bit cell with an 8-bit value (R12). -/
  x : Word
  /-- Index Y, a 16-bit cell with an 8-bit value (R13). -/
  y : Word
  /-- Stack pointer SP (R14). -/
  sp : Word
  /-- Program counter PC (R15). -/
  pc : Word
  /-- The flags register P (R20). -/
  p : Byte
  /-- The latch IR, the current opcode byte (R28). -/
  ir : Byte
  /-- The latch OPERAND, the current raw operand (R28). -/
  operand : Word
  /-- Memory (R40, R46). -/
  mem : Memory
  /-- The configuration: OPTABLE, STACK_BASE, MEM_READABLE, MEM_WRITABLE, HALT_PC (R4, R9). -/
  cfg : Config
deriving DecidableEq, Repr

/-- The errors that end a step (R150; `ExecutionError`), each with the information it carries (R152 to R158) and the state it
leaves behind: "the effects of the pseudocode lines before the raising line stay" (R161). A fault is terminal (R163: the machine
takes no further step), which is safe: a scheduler that logs and skips is outside the spec (log entry 8). -/
inductive Fault where
  /-- R152. Raised by the fetch stage where the opcode byte's slot is unpopulated. Safe: the spec's own error. -/
  | unknownOperation (b : Byte) (after : State)
  /-- R153. Raised before dispatch where the slot's kind has no handler. Safe: the spec's own error. -/
  | unimplementedInstruction (name : String) (after : State)
  /-- R154. Raised before dispatch, or by the resolver, where the pair is outside R85. Safe: the spec's own error. -/
  | unsupportedAddressingMode (kind : InstructionKind) (mode : AddressingModeKind) (after : State)
  /-- R155. Raised by every byte read that is refused or lies above 0xFFFF (R102). Safe: the spec's own error. -/
  | readOutOfMemory (addr : Nat) (after : State)
  /-- R156. Raised by every byte write that is refused or lies above 0xFFFF (R102). Safe: the spec's own error. -/
  | writeOutOfMemory (addr : Nat) (after : State)
  /-- R157. Raised by the PC advance and by a forward relative jump, at a cell that holds 0xFFFF. Safe: the spec's own error. -/
  | registerOverflow (r : RegName) (after : State)
  /-- R158. Raised by JSR's SP decrement and by a backward relative jump, at a cell that holds 0. Safe: the spec's own error. -/
  | registerUnderflow (r : RegName) (after : State)
deriving DecidableEq, Repr

/-- Why the model gives an instruction no meaning. -/
inductive Refusal where
  /-- Raised by an arm of `exec` that has no meaning yet; no arm is in that case. Safe: nothing runs. -/
  | notModelled (mnemonic : String)
deriving DecidableEq, Repr

/-- What a step answers. -/
abbrev Result := Host.Outcome State Fault Refusal

/-- The launch state (R30, R180): every register, flag and memory byte takes the value of its OPEN parameter. The latches are
unspecified and overwritten before use (R28); DESIGN CHOICE 0 (log entry 10). -/
def State.launch (c : Config) (l : LaunchParams) : State :=
  { a := l.aReset, x := l.xReset, y := l.yReset, sp := l.spReset, pc := l.pcReset, p := l.pReset,
    ir := 0#8, operand := 0#16, mem := l.memInit, cfg := c }

/-- The defaults of R4: `DEFAULT_OPTABLE` (log entry 4), `STACK_BASE` = 0x0100 (log entry 5), every address readable and
writable (log entry 6). R4 gives HALT_PC no default; DESIGN CHOICE none (log entry 7). -/
def defaultConfig : Config :=
  { opTable := defaultTable, stackBase := 0x0100#16, unreadable := [], unwritable := [], haltPc := none }

/-- The launch values of `State.reset`. The spec gives none (R30, D9). PRESUMED (log entry 1): the customary values of 6502-family
consoles that R4 and R30 name (A = X = Y = 0, SP = 0xFD, P = 0x24, PC from the two bytes at 0xFFFC, which are 00 in empty
memory); memory with nothing listed (log entry 2). -/
def defaultLaunch : LaunchParams :=
  { aReset := 0x0000#16, xReset := 0x0000#16, yReset := 0x0000#16, spReset := 0x00FD#16, pcReset := 0x0000#16,
    pReset := 0x24#8, memInit := [] }

/-- The machine right after reset: the launch state (R30) at the defaults. -/
def State.reset : State := State.launch defaultConfig defaultLaunch

end Sys2Proof.Machine
end

