-- ==== Sys2Proof/Machine/Ops.lean ====
section
/-! DEFINITION. The shared operations over registers and memory: the operations of a Register cell (`10_state.md` R17 to R19),
raising an error (`60_exceptions.md` R161), the memory port (`20_memory.md` R41, R42), and the stack push (`10_state.md` R16). -/

namespace Sys2Proof.Machine

/-! ### Raising an error -/

/-- `raise E(info)` (R6, R161): the step stops at this point with the error, effects of earlier lines stay in `s`, control goes
nowhere inside the machine, nothing is saved. The one operation by which an exception is taken; there is no return beside it,
since "there is nothing to return from" (R163). -/
def raise {α : Type} (error : State → Fault) (s : State) : Except Fault α := .error (error s)

/-- The outcome of a handler: its completed state, or the error it raised (R80, R161). -/
def finish : Except Fault State → Result
  | .ok s => .next s
  | .error f => .fault f

/-- The state an error leaves behind (R161). -/
def Fault.after : Fault → State
  | .unknownOperation _ s => s
  | .unimplementedInstruction _ s => s
  | .unsupportedAddressingMode _ _ s => s
  | .readOutOfMemory _ s => s
  | .writeOutOfMemory _ s => s
  | .registerOverflow _ s => s
  | .registerUnderflow _ s => s

/-! ### The Register cell -/

/-- Get: the full 16-bit value of a cell (R17). -/
def State.reg (s : State) : RegName → Word
  | .a => s.a
  | .x => s.x
  | .y => s.y
  | .sp => s.sp
  | .pc => s.pc

/-- Set: "set absolute value (masked to 16 bits)": the cell stores `v mod 2^16`, and set never raises (R17). -/
def State.setReg (s : State) (r : RegName) (v : Nat) : State :=
  match r with
  | .a => { s with a := BitVec.ofNat 16 v }
  | .x => { s with x := BitVec.ofNat 16 v }
  | .y => { s with y := BitVec.ofNat 16 v }
  | .sp => { s with sp := BitVec.ofNat 16 v }
  | .pc => { s with pc := BitVec.ofNat 16 v }

/-- `RegInc(r, n)` (R18): `n` unit steps; a unit step at 0xFFFF raises `RegisterOverflowError` and leaves the cell there. -/
def regInc (r : RegName) : Nat → State → Except Fault State
  | 0, s => .ok s
  | n + 1, s =>
    if s.reg r = 0xFFFF#16 then raise (.registerOverflow r) s
    else regInc r n (s.setReg r ((s.reg r).toNat + 1))

/-- `RegDec(r, n)` (R19): `n` unit steps; a unit step at 0 raises `RegisterUnderflowError` and leaves the cell there. -/
def regDec (r : RegName) : Nat → State → Except Fault State
  | 0, s => .ok s
  | n + 1, s =>
    if s.reg r = 0x0000#16 then raise (.registerUnderflow r) s
    else regDec r n (s.setReg r ((s.reg r).toNat - 1))

/-! ### The memory port -/

/-- Whether an address lies in one of the ranges. -/
def inRanges (rs : List AddrRange) (addr : Nat) : Bool :=
  rs.any fun r => decide (r.lo ≤ addr ∧ addr ≤ r.hi)

/-- Whether `MemRead` accepts an address: inside 0 to 0xFFFF and `MEM_READABLE` there (R41). -/
def State.canRead (s : State) (addr : Nat) : Bool :=
  decide (addr ≤ 0xFFFF) && !inRanges s.cfg.unreadable addr

/-- Whether `MemWrite` accepts an address: inside 0 to 0xFFFF and `MEM_WRITABLE` there (R42). -/
def State.canWrite (s : State) (addr : Nat) : Bool :=
  decide (addr ≤ 0xFFFF) && !inRanges s.cfg.unwritable addr

/-- The byte memory holds at an address: the model's read of one byte, whether or not the port would accept it (R46). -/
def State.byteAt (s : State) (addr : Nat) : Byte := s.mem.read addr

/-- `MemRead(addr, 1)` (R41): the byte, or `ReadOutOfMemoryError`; never a default value. -/
def memRead (addr : Nat) (s : State) : Except Fault Byte :=
  if s.canRead addr then .ok (s.byteAt addr) else raise (.readOutOfMemory addr) s

/-- `MemWrite(addr, 1, v)` (R42): the byte is stored, or `WriteOutOfMemoryError` and "a failed write changes no memory". -/
def memWrite (addr : Nat) (v : Byte) (s : State) : Except Fault State :=
  if s.canWrite addr then .ok { s with mem := s.mem.write addr v } else raise (.writeOutOfMemory addr) s

/-! ### The stack -/

/-- `StackAddr(x[SP])` = `STACK_BASE + x[SP]` (R16), not truncated. -/
def State.stackAddr (s : State) : Nat := s.cfg.stackBase.toNat + s.sp.toNat

/-- One push: write the byte at the stack address, then decrement SP by one (R16, R131). -/
def pushByte (v : Byte) (s : State) : Except Fault State := do
  let s ← memWrite s.stackAddr v s
  regDec .sp 1 s

end Sys2Proof.Machine
end

