-- ==== Sys2Proof/Machine/Flags.lean ====
section
/-! DEFINITION. The flags register P (`10_state.md` R20 to R25) and every flag computation of the spec: the "value implies flag"
setters (R23 to R25) and ADC's signed-overflow test (`41_arithmetic_logic.md` R110). -/

namespace Sys2Proof.Machine

/-- The bit position of each flag in P (R20). -/
def Flag.bit : Flag → Nat
  | .c => 0
  | .z => 1
  | .i => 2
  | .d => 3
  | .b => 4
  | .u => 5
  | .v => 6
  | .n => 7

/-- Test a named flag (R21). -/
def State.flag (s : State) (f : Flag) : Bool := s.p.getLsbD f.bit

/-- Write a named flag, `P.f <- b` (R6): set (b = 1) or clear (b = 0) that one bit and no other (R21). -/
def State.setFlag (s : State) (f : Flag) (b : Bool) : State :=
  { s with p := if b then s.p ||| (1#8 <<< f.bit) else s.p &&& ~~~(1#8 <<< f.bit) }

/-- The carry in of ADC, `b2n(P.C)` (R5). -/
def State.carryIn (s : State) : Nat := (s.flag .c).toNat

/-- `SetZ(v)` (R23): `P.Z <- ((v & 0xFF) = 0)`. -/
def State.setZ (s : State) (v : Nat) : State := s.setFlag .z (decide (v % 0x100 = 0))

/-- `SetN(v)` (R24): `P.N <- v[7]`. -/
def State.setN (s : State) (v : Nat) : State := s.setFlag .n (v.testBit 7)

/-- `SetCarith(v)` (R25): `P.C <- (v > 0xFF)`. -/
def State.setCarith (s : State) (v : Nat) : State := s.setFlag .c (decide (0xFF < v))

/-- ADC's signed-overflow test (R110): `(((~(a ^ m)) & (a ^ result)) & 0x80) != 0`, on the accumulator before the instruction,
the source value and the raw result. -/
def adcOverflow (a m result : Nat) : Bool :=
  ((~~~(BitVec.ofNat 16 a ^^^ BitVec.ofNat 16 m)) &&& (BitVec.ofNat 16 a ^^^ BitVec.ofNat 16 result)) &&& 0x0080#16 != 0x0000#16

end Sys2Proof.Machine
end

