-- ==== Sys2Proof/Machine/Operands.lean ====
section
/-! DEFINITION. The addressing-mode resolver (`40_step_and_addressing.md` R90 to R103): from a mode, a raw operand and the state to
an effective address or a source value, and the signed displacement of Relative. -/

namespace Sys2Proof.Machine

/-- `sext_8(v)` (R6): the byte read as two's complement, -128 to +127. -/
def sext8 (v : Byte) : Int := v.toInt

/-- The displacement of a Relative operand, `sext_8(op[7:0])` (R62, R99). -/
def displacement (op : Word) : Int := sext8 (lowByte op)

/-- The address of the IndirectX pointer, `(op + x[X]) mod 256` (R97). -/
def indirectXPointer (op : Word) (s : State) : Nat := (op.toNat + s.x.toNat) % 0x100

/-- A pointer in memory: low byte at `p`, high byte at `p + 1` without wrap, read in that order (R97, R98). -/
def readPointer (p : Nat) (s : State) : Except Fault Nat := do
  let lo ← memRead p s
  let hi ← memRead (p + 1) s
  return (wordOfBytes lo hi).toNat

/-- `EffAddr(mode, op)` (R90, R92 to R98, R103), as an unbounded natural (R102). A mode that yields no address raises
`UnsupportedAddressingModeError` naming the instruction and the mode (R85: "any addressing mode mismatch inside a handler fails
with the same error kind"; R91: no address is defined): DESIGN CHOICE (log entry 21). No instruction of `Instr` asks for one. -/
def effAddr (k : InstructionKind) (mode : AddressingModeKind) (op : Word) (s : State) : Except Fault Nat :=
  match mode with
  | .zeroPage => .ok op.toNat
  | .zeroPageX => .ok (op.toNat + s.x.toNat)
  | .absolute => .ok op.toNat
  | .absoluteX => .ok (op.toNat + s.x.toNat)
  | .absoluteY => .ok (op.toNat + s.y.toNat)
  | .indirectX => readPointer (indirectXPointer op s) s
  | .indirectY => do
    let base ← readPointer op.toNat s
    return base + s.y.toNat
  | .implied | .accumulator | .immediate | .relative => raise (.unsupportedAddressingMode k mode) s

/-- `SourceValue(mode, op)`, an "8-bit result" (R90): `op[7:0]` in Immediate (R91), `x[A]` in Accumulator, for ASL only (R101,
R103), the byte at the effective address in every memory mode. Elsewhere the resolver's error of `effAddr`. -/
def sourceValue (k : InstructionKind) (mode : AddressingModeKind) (op : Word) (s : State) : Except Fault Byte :=
  match mode with
  | .immediate => .ok (lowByte op)
  | .accumulator => if k = .asl then .ok (lowByte s.a) else raise (.unsupportedAddressingMode k .accumulator) s
  | mode => do
    let ea ← effAddr k mode op s
    memRead ea s

/-- The effective address of an instruction's own operand. -/
def instrAddr (i : Instr) (s : State) : Except Fault Nat := effAddr i.kind i.mode i.operand s

/-- The source value of an instruction's own operand. -/
def instrSource (i : Instr) (s : State) : Except Fault Byte := sourceValue i.kind i.mode i.operand s

end Sys2Proof.Machine
end

