-- ==== Sys2Proof/Machine/Arith.lean ====
section
/-! DEFINITION. Arithmetic and logic: ADC, BIT, ASL (`41_arithmetic_logic.md` R110 to R112). One handler per kind (R84), and one
meaning per instruction over it. -/

namespace Sys2Proof.Machine

/-- The result of ADC for a source value (R110): "`result = A + source + carryIn`", all of V, C, Z, N from the raw result, A the
result modulo 256. The decimal flag has no effect (D21). -/
def adcResult (m : Byte) (s : State) : State :=
  let a := s.a.toNat
  let result := a + m.toNat + s.carryIn
  let s := s.setFlag .v (adcOverflow a m.toNat result)
  let s := ((s.setCarith result).setZ result).setN result
  s.setReg .a (result % 0x100)

/-- The handler of ADC (R110). -/
def adc (mode : AddressingModeKind) (op : Word) (s : State) : Except Fault State := do
  let m ← sourceValue .adc mode op s
  return adcResult m s

/-- The result of BIT for a source value (R111): N and V are its bits 7 and 6, Z tests it against A. -/
def bitResult (m : Byte) (s : State) : State :=
  let s := s.setFlag .n (m.getLsbD 7)
  let s := s.setFlag .v (m.getLsbD 6)
  s.setFlag .z (decide ((m.setWidth 16 &&& s.a) &&& 0x00FF#16 = 0x0000#16))

/-- The handler of BIT (R111). -/
def bit (mode : AddressingModeKind) (op : Word) (s : State) : Except Fault State := do
  let m ← sourceValue .bit mode op s
  return bitResult m s

/-- The flags of ASL from the raw shifted value (R112): C, Z, N; V is not written. -/
def aslFlags (raw : Nat) (s : State) : State := ((s.setCarith raw).setZ raw).setN raw

/-- The handler of ASL in Accumulator mode (R112): the operand, "one 8-bit value", is the resolver's (R84, R101, R103). -/
def aslAccumulator (s : State) : Except Fault State := do
  let v ← sourceValue .asl .accumulator 0x0000#16 s
  let raw := v.toNat * 2
  return (aslFlags raw s).setReg .a (raw % 0x100)

/-- The handler of ASL in a memory mode (R112): read, then the flags, then the write-back at the same address; where the
write-back is refused "the three flags have already been written". -/
def aslMemory (mode : AddressingModeKind) (op : Word) (s : State) : Except Fault State := do
  let ea ← effAddr .asl mode op s
  let v ← memRead ea s
  let raw := v.toNat * 2
  memWrite ea (BitVec.ofNat 8 raw) (aslFlags raw s)

/-- ADC Immediate (R110). -/
def execAdcImmediate (op : Byte) (s : State) : Result := finish (adc .immediate (op.setWidth 16) s)

/-- ADC ZeroPage (R110). -/
def execAdcZeroPage (op : Byte) (s : State) : Result := finish (adc .zeroPage (op.setWidth 16) s)

/-- ADC ZeroPageX (R110). -/
def execAdcZeroPageX (op : Byte) (s : State) : Result := finish (adc .zeroPageX (op.setWidth 16) s)

/-- ADC Absolute (R110). -/
def execAdcAbsolute (op : Word) (s : State) : Result := finish (adc .absolute op s)

/-- ADC AbsoluteX (R110). -/
def execAdcAbsoluteX (op : Word) (s : State) : Result := finish (adc .absoluteX op s)

/-- ADC AbsoluteY (R110). -/
def execAdcAbsoluteY (op : Word) (s : State) : Result := finish (adc .absoluteY op s)

/-- ADC IndirectX (R110). -/
def execAdcIndirectX (op : Byte) (s : State) : Result := finish (adc .indirectX (op.setWidth 16) s)

/-- ADC IndirectY (R110). -/
def execAdcIndirectY (op : Byte) (s : State) : Result := finish (adc .indirectY (op.setWidth 16) s)

/-- BIT ZeroPage (R111). -/
def execBitZeroPage (op : Byte) (s : State) : Result := finish (bit .zeroPage (op.setWidth 16) s)

/-- BIT Absolute (R111). -/
def execBitAbsolute (op : Word) (s : State) : Result := finish (bit .absolute op s)

/-- ASL Accumulator (R112). -/
def execAslAccumulator (s : State) : Result := finish (aslAccumulator s)

/-- ASL ZeroPage (R112). -/
def execAslZeroPage (op : Byte) (s : State) : Result := finish (aslMemory .zeroPage (op.setWidth 16) s)

/-- ASL ZeroPageX (R112). -/
def execAslZeroPageX (op : Byte) (s : State) : Result := finish (aslMemory .zeroPageX (op.setWidth 16) s)

/-- ASL Absolute (R112). -/
def execAslAbsolute (op : Word) (s : State) : Result := finish (aslMemory .absolute op s)

/-- ASL AbsoluteX (R112). -/
def execAslAbsoluteX (op : Word) (s : State) : Result := finish (aslMemory .absoluteX op s)

end Sys2Proof.Machine
end

