-- ==== Sys2Proof/Machine/Control.lean ====
section
/-! DEFINITION. Control transfer: JMP, JSR, BCS, BCC, BEQ, BNE (`43_control_transfer.md` R130 to R136) over the shared relative
jump (R132). When a handler starts, PC is the address of the byte after the instruction (R15). -/

namespace Sys2Proof.Machine

/-- `RelativeJump(d)` (R132): a checked increment by `d`, or a checked decrement by `-d`; the target never wraps. -/
def relativeJump (d : Int) (s : State) : Except Fault State :=
  if 0 ≤ d then regInc .pc d.toNat s else regDec .pc (-d).toNat s

/-- An absolute jump (R130, R131): `pc <- op`, the Register set operation. -/
def jumpAbsolute (op : Word) (s : State) : Except Fault State := .ok (s.setReg .pc op.toNat)

/-- The four branches (R133 to R136): "perform the relative jump if and only if the named flag matches the documented
condition"; not taken, PC "is untouched by the branch itself". -/
def branchIf (f : Flag) (value : Bool) (op : Word) (s : State) : Except Fault State :=
  if s.flag f = value then relativeJump (displacement op) s else .ok s

/-- The handler of JSR (R131): push the high byte of PC, then its low byte, each push decrementing SP, then jump. -/
def jsr (op : Word) (s : State) : Except Fault State := do
  let s ← pushByte (highByte s.pc) s
  let s ← pushByte (lowByte s.pc) s
  jumpAbsolute op s

/-- JMP Absolute (R130). -/
def execJmpAbsolute (op : Word) (s : State) : Result := finish (jumpAbsolute op s)

/-- JMP Relative (R130). -/
def execJmpRelative (op : Byte) (s : State) : Result := finish (relativeJump (displacement (op.setWidth 16)) s)

/-- JSR Absolute (R131). -/
def execJsr (op : Word) (s : State) : Result := finish (jsr op s)

/-- BCS Relative (R133). -/
def execBcs (op : Byte) (s : State) : Result := finish (branchIf .c true (op.setWidth 16) s)

/-- BCC Relative (R134). -/
def execBcc (op : Byte) (s : State) : Result := finish (branchIf .c false (op.setWidth 16) s)

/-- BEQ Relative (R135). -/
def execBeq (op : Byte) (s : State) : Result := finish (branchIf .z true (op.setWidth 16) s)

/-- BNE Relative (R136). -/
def execBne (op : Byte) (s : State) : Result := finish (branchIf .z false (op.setWidth 16) s)

end Sys2Proof.Machine
end

