-- ==== Sys2Proof/Machine/FlagNop.lean ====
section
/-! DEFINITION. Flag instructions and NOP: CLC, SEC, NOP (`44_flag_nop.md` R140 to R142). -/

namespace Sys2Proof.Machine

/-- CLC Implied (R140). -/
def execClc (s : State) : Result := finish (.ok (s.setFlag .c false))

/-- SEC Implied (R141). -/
def execSec (s : State) : Result := finish (.ok (s.setFlag .c true))

/-- NOP Implied (R142). -/
def execNop (s : State) : Result := finish (.ok s)

end Sys2Proof.Machine
end

