-- ==== Sys2Proof/Machine/LoadStore.lean ====
section
/-! DEFINITION. Loads and stores: LDA, LDX, STA, STX (`42_load_store.md` R120 to R123). -/

namespace Sys2Proof.Machine

/-- The result of a load into a cell (R120, R121): the cell takes the source value, Z and N are set from it. -/
def loadResult (r : RegName) (m : Byte) (s : State) : State := ((s.setReg r m.toNat).setZ m.toNat).setN m.toNat

/-- The handler of LDA (R120). -/
def lda (mode : AddressingModeKind) (op : Word) (s : State) : Except Fault State := do
  let m ← sourceValue .lda mode op s
  return loadResult .a m s

/-- The handler of LDX (R121), Immediate only. -/
def ldx (op : Word) (s : State) : Except Fault State := do
  let m ← sourceValue .ldx .immediate op s
  return loadResult .x m s

/-- The handler of STA (R122): `x[A][7:0]` to the effective address; no flag changes. -/
def sta (mode : AddressingModeKind) (op : Word) (s : State) : Except Fault State := do
  let ea ← effAddr .sta mode op s
  memWrite ea (lowByte s.a) s

/-- The handler of STX (R123): `x[X][7:0]` to the effective address; no flag changes. -/
def stx (mode : AddressingModeKind) (op : Word) (s : State) : Except Fault State := do
  let ea ← effAddr .stx mode op s
  memWrite ea (lowByte s.x) s

/-- LDA Immediate (R120). -/
def execLdaImmediate (op : Byte) (s : State) : Result := finish (lda .immediate (op.setWidth 16) s)

/-- LDA ZeroPage (R120). -/
def execLdaZeroPage (op : Byte) (s : State) : Result := finish (lda .zeroPage (op.setWidth 16) s)

/-- LDA ZeroPageX (R120). -/
def execLdaZeroPageX (op : Byte) (s : State) : Result := finish (lda .zeroPageX (op.setWidth 16) s)

/-- LDA Absolute (R120). -/
def execLdaAbsolute (op : Word) (s : State) : Result := finish (lda .absolute op s)

/-- LDA AbsoluteX (R120). -/
def execLdaAbsoluteX (op : Word) (s : State) : Result := finish (lda .absoluteX op s)

/-- LDA AbsoluteY (R120). -/
def execLdaAbsoluteY (op : Word) (s : State) : Result := finish (lda .absoluteY op s)

/-- LDA IndirectX (R120). -/
def execLdaIndirectX (op : Byte) (s : State) : Result := finish (lda .indirectX (op.setWidth 16) s)

/-- LDA IndirectY (R120). -/
def execLdaIndirectY (op : Byte) (s : State) : Result := finish (lda .indirectY (op.setWidth 16) s)

/-- LDX Immediate (R121). -/
def execLdx (op : Byte) (s : State) : Result := finish (ldx (op.setWidth 16) s)

/-- STA ZeroPage (R122). -/
def execStaZeroPage (op : Byte) (s : State) : Result := finish (sta .zeroPage (op.setWidth 16) s)

/-- STA ZeroPageX (R122). -/
def execStaZeroPageX (op : Byte) (s : State) : Result := finish (sta .zeroPageX (op.setWidth 16) s)

/-- STA Absolute (R122). -/
def execStaAbsolute (op : Word) (s : State) : Result := finish (sta .absolute op s)

/-- STA AbsoluteX (R122). -/
def execStaAbsoluteX (op : Word) (s : State) : Result := finish (sta .absoluteX op s)

/-- STA AbsoluteY (R122). -/
def execStaAbsoluteY (op : Word) (s : State) : Result := finish (sta .absoluteY op s)

/-- STA IndirectX (R122). -/
def execStaIndirectX (op : Byte) (s : State) : Result := finish (sta .indirectX (op.setWidth 16) s)

/-- STA IndirectY (R122). -/
def execStaIndirectY (op : Byte) (s : State) : Result := finish (sta .indirectY (op.setWidth 16) s)

/-- STX ZeroPage (R123). -/
def execStxZeroPage (op : Byte) (s : State) : Result := finish (stx .zeroPage (op.setWidth 16) s)

/-- STX Absolute (R123). -/
def execStxAbsolute (op : Word) (s : State) : Result := finish (stx .absolute op s)

end Sys2Proof.Machine
end

