-- ==== Sys2Proof/Machine/Dispatch.lean ====
section
/-! DEFINITION. Dispatch (`40_step_and_addressing.md` R84, line 12 of R80): one arm per instruction. -/

namespace Sys2Proof.Machine

def exec (i : Instr) (s : State) : Host.Outcome State Fault Refusal :=
  match i with
  | .adcImmediate op => Sys2Proof.Machine.execAdcImmediate op s
  | .adcZeroPage op => Sys2Proof.Machine.execAdcZeroPage op s
  | .adcZeroPageX op => Sys2Proof.Machine.execAdcZeroPageX op s
  | .adcAbsolute op => Sys2Proof.Machine.execAdcAbsolute op s
  | .adcAbsoluteX op => Sys2Proof.Machine.execAdcAbsoluteX op s
  | .adcAbsoluteY op => Sys2Proof.Machine.execAdcAbsoluteY op s
  | .adcIndirectX op => Sys2Proof.Machine.execAdcIndirectX op s
  | .adcIndirectY op => Sys2Proof.Machine.execAdcIndirectY op s
  | .aslAccumulator => Sys2Proof.Machine.execAslAccumulator s
  | .aslZeroPage op => Sys2Proof.Machine.execAslZeroPage op s
  | .aslZeroPageX op => Sys2Proof.Machine.execAslZeroPageX op s
  | .aslAbsolute op => Sys2Proof.Machine.execAslAbsolute op s
  | .aslAbsoluteX op => Sys2Proof.Machine.execAslAbsoluteX op s
  | .bcc op => Sys2Proof.Machine.execBcc op s
  | .bcs op => Sys2Proof.Machine.execBcs op s
  | .beq op => Sys2Proof.Machine.execBeq op s
  | .bitZeroPage op => Sys2Proof.Machine.execBitZeroPage op s
  | .bitAbsolute op => Sys2Proof.Machine.execBitAbsolute op s
  | .bne op => Sys2Proof.Machine.execBne op s
  | .clc => Sys2Proof.Machine.execClc s
  | .jmpAbsolute op => Sys2Proof.Machine.execJmpAbsolute op s
  | .jmpRelative op => Sys2Proof.Machine.execJmpRelative op s
  | .jsr op => Sys2Proof.Machine.execJsr op s
  | .ldaImmediate op => Sys2Proof.Machine.execLdaImmediate op s
  | .ldaZeroPage op => Sys2Proof.Machine.execLdaZeroPage op s
  | .ldaZeroPageX op => Sys2Proof.Machine.execLdaZeroPageX op s
  | .ldaAbsolute op => Sys2Proof.Machine.execLdaAbsolute op s
  | .ldaAbsoluteX op => Sys2Proof.Machine.execLdaAbsoluteX op s
  | .ldaAbsoluteY op => Sys2Proof.Machine.execLdaAbsoluteY op s
  | .ldaIndirectX op => Sys2Proof.Machine.execLdaIndirectX op s
  | .ldaIndirectY op => Sys2Proof.Machine.execLdaIndirectY op s
  | .ldx op => Sys2Proof.Machine.execLdx op s
  | .nop => Sys2Proof.Machine.execNop s
  | .sec => Sys2Proof.Machine.execSec s
  | .staZeroPage op => Sys2Proof.Machine.execStaZeroPage op s
  | .staZeroPageX op => Sys2Proof.Machine.execStaZeroPageX op s
  | .staAbsolute op => Sys2Proof.Machine.execStaAbsolute op s
  | .staAbsoluteX op => Sys2Proof.Machine.execStaAbsoluteX op s
  | .staAbsoluteY op => Sys2Proof.Machine.execStaAbsoluteY op s
  | .staIndirectX op => Sys2Proof.Machine.execStaIndirectX op s
  | .staIndirectY op => Sys2Proof.Machine.execStaIndirectY op s
  | .stxZeroPage op => Sys2Proof.Machine.execStxZeroPage op s
  | .stxAbsolute op => Sys2Proof.Machine.execStxAbsolute op s

end Sys2Proof.Machine
end

