-- ==== Sys2Proof/Machine/Fetch.lean ====
section
/-! DEFINITION. The fetch stage of a step (`40_step_and_addressing.md` R80 to R83, lines 1 to 9) and the checks before dispatch
(lines 10 and 11, R85, R86). -/

namespace Sys2Proof.Machine

/-- One operand byte at PC, and PC advanced past it (lines 7 and 8 of R80). -/
def fetchByte (s : State) : Except Fault (Byte × State) := do
  let b ← memRead s.pc.toNat s
  let s ← regInc .pc 1 s
  return (b, s)

/-- The raw operand of `n` operand bytes, low byte first, and PC advanced past them (lines 7 to 9 of R80, R62). -/
def fetchOperand : Nat → State → Except Fault (Word × State)
  | 0, s => .ok (0#16, s)
  | 1, s => do
    let (lo, s) ← fetchByte s
    return (lo.setWidth 16, s)
  | _, s => do
    let (lo, s) ← fetchByte s
    let (hi, s) ← fetchByte s
    return (wordOfBytes lo hi, s)

/-- Lines 1 to 9 of the step (R80): the opcode byte is read and looked up before anything changes (R82), then IR takes it, PC is
advanced by a checked increment per byte, and OPERAND takes the raw operand (R83). -/
def fetch (s : State) : Except Fault (OperationCode × State) := do
  let b ← memRead s.pc.toNat s
  match s.cfg.opTable.lookup b with
  | none => raise (.unknownOperation b) s
  | some e => do
    let s ← regInc .pc 1 { s with ir := b }
    let (op, s) ← fetchOperand (operandLength e.mode) s
    return (e, { s with operand := op })

/-- The error of a table entry that selects no instruction, in the state after the fetch (lines 10 and 11 of R80; R153, R154). -/
def selectFault : SelectError → State → Fault
  | .unimplementedInstruction name => .unimplementedInstruction name
  | .unsupportedAddressingMode k m => .unsupportedAddressingMode k m

/-- Lines 1 to 11 of the step (R80): the instruction to dispatch and the state its handler starts in. -/
def fetchInstr (s : State) : Except Fault (Instr × State) := do
  let (e, s) ← fetch s
  match selectInstr e.kind e.mode s.operand with
  | .ok i => return (i, s)
  | .error err => raise (selectFault err) s

/-- Place bytes at an address and the ones after it, as a program loader does; an address above 0xFFFF is no memory location. -/
def placeBytes : Nat → List Byte → State → State
  | _, [], s => s
  | addr, b :: bs, s =>
    placeBytes (addr + 1) bs (if addr ≤ 0xFFFF then { s with mem := s.mem.write addr b } else s)

end Sys2Proof.Machine
end

