-- ==== Sys2Proof/Machine/Step.lean ====
section
/-! DEFINITION. One step of the machine (`40_step_and_addressing.md` R80): fetch, decode, the checks, dispatch. -/

namespace Sys2Proof.Machine

/-- `Step()` (R80): it completes, or it faults with exactly one error, the first one met (R160). -/
def step (s : State) : Host.Outcome State Fault Refusal :=
  match fetchInstr s with
  | .ok (i, s') => exec i s'
  | .error f => .fault f

/-- `s` with the instruction whose bits are `w` (numbered as `opcode_table.json` numbers them) in memory at PC, where the next
step fetches (R81). It stands for the loading of a program from outside the machine (log entry 11). -/
def State.withFetchWord (s : State) (nbits w : Nat) : State :=
  placeBytes s.pc.toNat (tableWordBytes nbits w) s

end Sys2Proof.Machine
end

