-- ==== Sys2Proof/Machine/Schedule.lean ====
section
/-! DEFINITION. The end of a run (`70_reset_and_hazards.md` R195): the scheduler's convention around `step`. -/

namespace Sys2Proof.Machine

/-- How far a run has come (R195). -/
inductive RunEnd where
  /-- The bound on the steps is used up and the run goes on. -/
  | running (s : State)
  /-- (b) Before a step, `pc = HALT_PC`: the final state of the run. -/
  | halted (s : State)
  /-- (a) A step raised an error: the faulted state is "never a successful end" (R163). -/
  | faulted (f : Fault)
  /-- A step was refused by the model; no instruction of this model is. -/
  | refused (r : Refusal)
deriving DecidableEq, Repr

/-- Whether the scheduler stops before the next step: `pc = HALT_PC` (R195 b). -/
def State.atHalt (s : State) : Bool := decide (s.cfg.haltPc = some s.pc)

/-- At most `n` steps of a run (R195): "the scheduler does not call the step" at HALT_PC, and "takes no further step" after a
fault (R163). -/
def runSteps : Nat → State → RunEnd
  | 0, s => if s.atHalt then .halted s else .running s
  | n + 1, s =>
    if s.atHalt then .halted s
    else
      match step s with
      | .next s' => runSteps n s'
      | .fault f => .faulted f
      | .refused r => .refused r

end Sys2Proof.Machine
end

