-- ==== Sys2Proof/Machine/TableBuild.lean ====
section
/-! DEFINITION. The decoder build (`30_encoding.md` R68, R69): from the declarative text resource to the opcode table, or a
`DecodeTableError` (`60_exceptions.md` R151). The loader runs it once, before any step; no step calls it. -/

namespace Sys2Proof.Machine

/-- Why one line of the resource is malformed (R69). -/
inductive EntryProblem where
  /-- The line is not `key = payload` with a key of `0x` and two hex digits (so also a key outside 0 to 255). -/
  | badKey
  /-- The payload is not two names with `;` between them. -/
  | badPayload
  /-- The first name is no instruction name the resource accepts. -/
  | unknownInstruction
  /-- The second name is no addressing-mode name. -/
  | unknownMode
  /-- An earlier line that is not itself malformed has the same key (DESIGN CHOICE, log entry 22). -/
  | duplicateKey
deriving DecidableEq, Repr

/-- `DecodeTableError` (R151): "malformed/unreadable opcode resource - fatal to startup, no partial table is used". -/
inductive DecodeTableError where
  /-- The resource cannot be read. -/
  | unreadable
  /-- The malformed lines, each by its number from 0 (C3: the scan goes on, so that every bad entry is reported). -/
  | malformed (problems : List (Nat × EntryProblem))
deriving DecidableEq, Repr

/-- The base-16 digits, each beside its value (R68: the key is "parsed as an unsigned base-16 byte value"). -/
def hexDigits : List (Char × Nat) := "0123456789ABCDEF".toList.zipIdx

/-- The value of one base-16 digit, written in either case (log entry 15). -/
def hexDigit (c : Char) : Option Nat := hexDigits.lookup c.toUpper

/-- The kind names of the resource (R68, D24). -/
def kindNames : List (String × InstructionKind) :=
  [("ADC", .adc), ("ASL", .asl), ("BCC", .bcc), ("BCS", .bcs), ("BEQ", .beq), ("BIT", .bit), ("BNE", .bne), ("CLC", .clc),
   ("JMP", .jmp), ("JSR", .jsr), ("LDA", .lda), ("LDX", .ldx), ("NOP", .nop), ("SEC", .sec), ("STA", .sta), ("STX", .stx)]

/-- The mode names of the resource (R68, D24). -/
def modeNames : List (String × AddressingModeKind) :=
  [("Implied", .implied), ("Accumulator", .accumulator), ("Immediate", .immediate), ("ZeroPage", .zeroPage),
   ("ZeroPageX", .zeroPageX), ("Absolute", .absolute), ("AbsoluteX", .absoluteX), ("AbsoluteY", .absoluteY),
   ("IndirectX", .indirectX), ("IndirectY", .indirectY), ("Relative", .relative)]

/-- The value beside a name in a list of names. -/
def nameLookup {α : Type} (names : List (String × α)) (text : List Char) : Option α :=
  match names with
  | [] => none
  | (n, v) :: rest => if n.toList = text then some v else nameLookup rest text

/-- The kind of an instruction name: one of the 16, or `Other(name)` for a further name the resource accepts (R7, R86). -/
def parseKind (accepted : List String) (text : List Char) : Option InstructionKind :=
  match nameLookup kindNames text with
  | some k => some k
  | none => nameLookup (accepted.map fun n => (n, InstructionKind.other n)) text

/-- The characters before the first `;` and those after it. -/
def splitSemicolon : List Char → Option (List Char × List Char)
  | [] => none
  | c :: cs => if c = ';' then some ([], cs) else (splitSemicolon cs).map fun (l, r) => (c :: l, r)

/-- The payload `"<InstructionName>;<AddressingModeName>"` (R68). -/
def parsePayload (accepted : List String) (text : List Char) :
    Except EntryProblem (InstructionKind × AddressingModeKind) :=
  match splitSemicolon text with
  | none => .error .badPayload
  | some (kindText, modeText) =>
    match parseKind accepted kindText, nameLookup modeNames modeText with
    | none, _ => .error .unknownInstruction
    | some _, none => .error .unknownMode
    | some k, some m => .ok (k, m)

/-- One line, `key = payload`, key `"0x" + two-hex-digit opcode` (R68). -/
def parseEntry (accepted : List String) : List Char → Except EntryProblem OperationCode
  | '0' :: 'x' :: h :: l :: ' ' :: '=' :: ' ' :: payload =>
    match hexDigit h, hexDigit l with
    | some hi, some lo =>
      match parsePayload accepted payload with
      | .ok (k, m) => .ok ⟨BitVec.ofNat 8 (hi * 16 + lo), k, m⟩
      | .error e => .error e
    | _, _ => .error .badKey
  | _ => .error .badKey

/-- An entry put into its slot, the slots staying in rising order; none where the slot is taken (R65 a: duplicate keys are
"rejected as an error rather than silently overwritten"). -/
def insertSlot (e : OperationCode) : OpTable → Option OpTable
  | [] => some [e]
  | f :: t =>
    if e.rawByte.toNat < f.rawByte.toNat then some (e :: f :: t)
    else if e.rawByte = f.rawByte then none
    else (insertSlot e t).map fun t' => f :: t'

/-- Scan the lines from line number `n` on: the slots filled so far and the problems met. DESIGN CHOICE (log entry 22): each
malformed line is reported with one problem, the first met in reading it; a key counts as a duplicate only of an earlier line that
filled its slot, so a key repeated after a malformed line is none. -/
def scanEntries (accepted : List String) : Nat → List (List Char) → OpTable × List (Nat × EntryProblem)
    → OpTable × List (Nat × EntryProblem)
  | _, [], acc => acc
  | n, line :: lines, (t, problems) =>
    match parseEntry accepted line with
    | .error e => scanEntries accepted (n + 1) lines (t, problems ++ [(n, e)])
    | .ok entry =>
      match insertSlot entry t with
      | none => scanEntries accepted (n + 1) lines (t, problems ++ [(n, .duplicateKey)])
      | some t' => scanEntries accepted (n + 1) lines (t', problems)

/-- `build() -> OpcodeTable` (R69): the table, or `DecodeTableError` where the resource is unreadable (none) or malformed;
"no partial table is used". `accepted` lists the further instruction names the resource accepts (log entry 15). -/
def buildTable (accepted : List String) : Option (List (List Char)) → Except DecodeTableError OpTable
  | none => .error .unreadable
  | some lines =>
    match scanEntries accepted 0 lines ([], []) with
    | (t, []) => .ok t
    | (_, problems) => .error (.malformed problems)

end Sys2Proof.Machine
end

