-- ==== Sys2Proof/Safety.lean ====
section
/-! DEFINITION. The terms claims use: the invariant of the machine, the condition under which a run is safe, and the lists of
`10_state.md` R26 and `60_exceptions.md` R159. -/

namespace Sys2Proof.Machine

/-- The invariant of the state: A, X, Y hold 8-bit values (R11 to R13), every stack address is a 16-bit address (R16), memory is
in canonical form inside the address space (R40, R46), the opcode table is well-formed (R65). -/
structure State.Inv (s : State) : Prop where
  a_le : s.a.toNat ≤ 0xFF
  x_le : s.x.toNat ≤ 0xFF
  y_le : s.y.toNat ≤ 0xFF
  stack_le : s.cfg.stackBase.toNat + s.sp.toNat ≤ 0xFFFF
  mem_wf : s.mem.wf = true
  table_wf : s.cfg.opTable.wellFormed = true

/-- A run is safe for `n` steps when no step of it raises an error or is refused (R163: a faulted state is never final). -/
def State.SafeFor (n : Nat) (s : State) : Prop := (∃ t, runSteps n s = .running t) ∨ (∃ t, runSteps n s = .halted t)

/-- The flags each kind writes: "the complete list" of R26. -/
def flagsWritten : InstructionKind → List Flag
  | .adc => [.c, .z, .n, .v]
  | .asl => [.c, .z, .n]
  | .bit => [.z, .n, .v]
  | .lda | .ldx => [.z, .n]
  | .clc | .sec => [.c]
  | .sta | .stx | .jmp | .jsr | .bcs | .bcc | .beq | .bne | .nop => []
  | .other _ => []

/-- The table of R85, one row per kind: the 43 supported pairs. -/
def supportedPairs : List (InstructionKind × List AddressingModeKind) :=
  [(.adc, [.immediate, .zeroPage, .zeroPageX, .absolute, .absoluteX, .absoluteY, .indirectX, .indirectY]),
   (.asl, [.accumulator, .zeroPage, .zeroPageX, .absolute, .absoluteX]),
   (.bcc, [.relative]), (.bcs, [.relative]), (.beq, [.relative]), (.bne, [.relative]),
   (.bit, [.zeroPage, .absolute]), (.clc, [.implied]), (.sec, [.implied]), (.nop, [.implied]),
   (.jmp, [.absolute, .relative]), (.jsr, [.absolute]),
   (.lda, [.immediate, .zeroPage, .zeroPageX, .absolute, .absoluteX, .absoluteY, .indirectX, .indirectY]),
   (.ldx, [.immediate]),
   (.sta, [.zeroPage, .zeroPageX, .absolute, .absoluteX, .absoluteY, .indirectX, .indirectY]),
   (.stx, [.zeroPage, .absolute])]

/-- A byte read as two's complement, `sext_8` of `00_scope.md` R6: the byte below 0x80, the byte minus 0x100 from there on. -/
def signedByte (v : Byte) : Int := if v.toNat < 0x80 then v.toNat else (v.toNat : Int) - 0x100

/-- What a relative jump by `d` answers from `s` (R132): the sum where it is an address; else the error, with PC saturated. -/
def JumpsBy (s : State) (d : Int) (r : Result) : Prop :=
  (0 ≤ (s.pc.toNat : Int) + d ∧ (s.pc.toNat : Int) + d ≤ 0xFFFF →
    r = .next { s with pc := BitVec.ofNat 16 ((s.pc.toNat : Int) + d).toNat }) ∧
  (0xFFFF < (s.pc.toNat : Int) + d → r = .fault (.registerOverflow .pc { s with pc := 0xFFFF#16 })) ∧
  ((s.pc.toNat : Int) + d < 0 → r = .fault (.registerUnderflow .pc { s with pc := 0x0000#16 }))

/-- `t` holds byte `v` at address `addr` and every other byte as `s` has it. -/
def StoresByte (s t : State) (addr : Nat) (v : Byte) : Prop :=
  t.byteAt addr = v ∧ ∀ b, b ≠ addr → t.byteAt b = s.byteAt b

/-- Two flags registers agree on every bit outside a list of bit positions. -/
def AgreesOutside (ks : List Nat) (p q : Byte) : Prop := ∀ k, k ∉ ks → p.getLsbD k = q.getLsbD k

/-- The `n` bytes of memory from an address on. -/
def State.bytesFrom (s : State) : Nat → Nat → List Byte
  | _, 0 => []
  | addr, n + 1 => s.byteAt addr :: s.bytesFrom (addr + 1) n

/-- Whether the `n` bytes from an address on can all be read. -/
def State.canReadFrom (s : State) : Nat → Nat → Bool
  | _, 0 => true
  | addr, n + 1 => s.canRead addr && s.canReadFrom (addr + 1) n

end Sys2Proof.Machine
end

