-- ==== Sys2Proof/Certificates/Slice0/Obligations.lean ====
section
/-! DEFINITION. The statements about the model, from the numbered rules of the spec. A statement about a next state gives that
state as an update of the state before, so that every register, flag, latch and byte it does not name is unchanged; where bytes
are stored, memory is compared byte by byte. -/

open Sys2Proof Sys2Proof.Machine

/-! ### Launch and invariants -/

/-- R180: at the launch every register, the flags and memory take the values of their parameters. The values of
`State.reset` itself are the model's choice (log entries 1 and 2) and nothing is stated of them here. -/
def Obligations.LaunchTakesItsParameters : Prop :=
  ∀ (c : Config) (l : LaunchParams),
    (State.launch c l).a = l.aReset ∧ (State.launch c l).x = l.xReset ∧ (State.launch c l).y = l.yReset ∧
    (State.launch c l).sp = l.spReset ∧ (State.launch c l).pc = l.pcReset ∧ (State.launch c l).p = l.pReset ∧
    (∀ addr, (State.launch c l).byteAt addr = l.memInit.read addr) ∧ (State.launch c l).cfg = c

/-- R30, R181: a launch within the constraints meets the invariant, whatever the parameters are. -/
def Obligations.LaunchMeetsInvariant : Prop :=
  ∀ (c : Config) (l : LaunchParams), l.wellFormed c = true → (State.launch c l).Inv

/-- The reset state meets the invariant. It rests on the model's own reset values (log entries 1, 2, 4, 5). -/
def Obligations.ResetMeetsInvariant : Prop := State.reset.Inv

/-- Every step keeps the invariant, whether it completes or raises an error: A, X, Y stay 8-bit values (R11 to R13), stack
addresses stay 16-bit addresses (R16), memory stays canonical inside the address space, the table stays well-formed (R65). -/
def Obligations.StepPreservesInvariant : Prop :=
  ∀ s : State, s.Inv → (∀ t, step s = .next t → t.Inv) ∧ (∀ f, step s = .fault f → f.after.Inv)

/-- R22: bits I, D, B and U of P keep their value in every step, also in one that raises an error. -/
def Obligations.StepPreservesReservedFlags : Prop :=
  ∀ (s : State) (f : Flag), f ∈ [Flag.i, Flag.d, Flag.b, Flag.u] →
    (∀ t, step s = .next t → t.flag f = s.flag f) ∧ (∀ e, step s = .fault e → e.after.flag f = s.flag f)

/-- R9, R13: no step writes Y or the configuration. -/
def Obligations.StepPreservesYAndConfiguration : Prop :=
  ∀ s : State, (∀ t, step s = .next t → t.y = s.y ∧ t.cfg = s.cfg) ∧
    (∀ e, step s = .fault e → e.after.y = s.y ∧ e.after.cfg = s.cfg)

/-- R14: SP never rises, and only JSR moves it. -/
def Obligations.SpOnlyFallsAndOnlyInJsr : Prop :=
  (∀ s : State, (∀ t, step s = .next t → t.sp.toNat ≤ s.sp.toNat) ∧
    (∀ e, step s = .fault e → e.after.sp.toNat ≤ s.sp.toNat)) ∧
  (∀ (i : Instr) (s t : State), i.kind ≠ .jsr → exec i s = .next t → t.sp = s.sp) ∧
  (∀ (i : Instr) (s : State) (e : Fault), i.kind ≠ .jsr → exec i s = .fault e → e.after.sp = s.sp)

/-- R80: a step completes or faults; the model refuses no instruction. -/
def Obligations.StepIsNeverRefused : Prop :=
  ∀ (s : State) (r : Refusal), step s ≠ .refused r

/-- R22, R110 (D21): bits 2 to 5 of P are read by nothing: two states that differ only in them step to states that differ only in
them. In particular the decimal flag does not change ADC. -/
def Obligations.ReservedFlagsAreNeverRead : Prop :=
  ∀ (s t : State) (q : Byte), AgreesOutside [2, 3, 4, 5] q s.p → step s = .next t →
    ∃ r : Byte, step { s with p := q } = .next { t with p := r } ∧
      AgreesOutside [2, 3, 4, 5] r t.p ∧ AgreesOutside [0, 1, 6, 7] r q

/-- R28: the latches are overwritten before they are read, so what an earlier step left in them is never observed. -/
def Obligations.LatchesAreNeverObserved : Prop :=
  ∀ (s t : State) (b : Byte) (w : Word), step s = .next t → step { s with ir := b, operand := w } = .next t

/-! ### What an instruction may write -/

/-- R26: an instruction writes no flag outside the list of its kind, whether it completes or raises an error. -/
def Obligations.FlagsOutsideTheListAreKept : Prop :=
  ∀ (i : Instr) (s : State) (f : Flag), f ∉ flagsWritten i.kind →
    (∀ t, exec i s = .next t → t.flag f = s.flag f) ∧ (∀ e, exec i s = .fault e → e.after.flag f = s.flag f)

/-- R11, R12, R15, R122, R123, R131, R112: which instructions may write A, X, PC, memory; the latches are written by none. -/
def Obligations.RegistersAreWrittenOnlyByTheirWriters : Prop :=
  ∀ (i : Instr) (s t : State), exec i s = .next t →
    (i.kind ∉ [.lda, .adc] → i ≠ .aslAccumulator → t.a = s.a) ∧
    (i.kind ≠ .ldx → t.x = s.x) ∧
    (i.kind ∉ [.jmp, .jsr, .bcs, .bcc, .beq, .bne] → t.pc = s.pc) ∧
    (i.kind ∉ [.sta, .stx, .jsr, .asl] → ∀ addr, t.byteAt addr = s.byteAt addr) ∧
    t.ir = s.ir ∧ t.operand = s.operand

/-! ### The Register cell and the flags register -/

/-- R17: set stores the value modulo 2^16 in the one cell; get returns the cell, its low byte and its high byte. -/
def Obligations.RegisterSetMasksTo16Bits : Prop :=
  ∀ (s : State) (r : RegName) (v : Nat),
    ((s.setReg r v).reg r).toNat = v % 0x10000 ∧ (∀ q, q ≠ r → (s.setReg r v).reg q = s.reg q) ∧
    (s.setReg r v).p = s.p ∧ (s.setReg r v).mem = s.mem ∧
    (lowByte (s.reg r)).toNat = (s.reg r).toNat % 0x100 ∧ (highByte (s.reg r)).toNat = (s.reg r).toNat / 0x100

/-- R18: the checked increment by `n`. -/
def Obligations.RegIncIsCheckedAndSaturates : Prop :=
  ∀ (r : RegName) (n : Nat) (s : State),
    ((s.reg r).toNat + n ≤ 0xFFFF → regInc r n s = .ok (s.setReg r ((s.reg r).toNat + n))) ∧
    (0xFFFF < (s.reg r).toNat + n → regInc r n s = .error (.registerOverflow r (s.setReg r 0xFFFF)))

/-- R19: the checked decrement by `n`. -/
def Obligations.RegDecIsCheckedAndSaturates : Prop :=
  ∀ (r : RegName) (n : Nat) (s : State),
    (n ≤ (s.reg r).toNat → regDec r n s = .ok (s.setReg r ((s.reg r).toNat - n))) ∧
    ((s.reg r).toNat < n → regDec r n s = .error (.registerUnderflow r (s.setReg r 0)))

/-- R20, R21: the eight flags stand at the eight bit positions, and writing one touches that bit and nothing else. -/
def Obligations.FlagOperationsTouchOneBit : Prop :=
  (∀ s : State, s.flag .c = s.p.getLsbD 0 ∧ s.flag .z = s.p.getLsbD 1 ∧ s.flag .i = s.p.getLsbD 2 ∧
    s.flag .d = s.p.getLsbD 3 ∧ s.flag .b = s.p.getLsbD 4 ∧ s.flag .u = s.p.getLsbD 5 ∧
    s.flag .v = s.p.getLsbD 6 ∧ s.flag .n = s.p.getLsbD 7) ∧
  (∀ (s : State) (f : Flag) (b : Bool),
    (s.setFlag f b).flag f = b ∧ (∀ g, g ≠ f → (s.setFlag f b).flag g = s.flag g) ∧
    ∃ p : Byte, s.setFlag f b = { s with p := p })

/-- R23, R24, R25: the value-implies-flag setters, on a value of any size. -/
def Obligations.ValueImpliesFlagSetters : Prop :=
  ∀ (s : State) (v : Nat),
    ((s.setZ v).flag .z = true ↔ v &&& 0xFF = 0) ∧ (∀ g, g ≠ .z → (s.setZ v).flag g = s.flag g) ∧
    ((s.setN v).flag .n = true ↔ v / 0x80 % 2 = 1) ∧ (∀ g, g ≠ .n → (s.setN v).flag g = s.flag g) ∧
    ((s.setCarith v).flag .c = true ↔ 0xFF < v) ∧ (∀ g, g ≠ .c → (s.setCarith v).flag g = s.flag g)

/-! ### Memory -/

/-- R41: a byte read answers the byte, or refuses an address above 0xFFFF or one where `MEM_READABLE` is false
(held as the ranges where it is false, log entry 17). -/
def Obligations.MemReadAnswersOrRefuses : Prop :=
  ∀ (addr : Nat) (s : State),
    (addr ≤ 0xFFFF → (∀ r ∈ s.cfg.unreadable, ¬(r.lo ≤ addr ∧ addr ≤ r.hi)) → memRead addr s = .ok (s.byteAt addr)) ∧
    (0xFFFF < addr ∨ (∃ r ∈ s.cfg.unreadable, r.lo ≤ addr ∧ addr ≤ r.hi) →
      memRead addr s = .error (.readOutOfMemory addr s))

/-- R42: a byte write stores the one byte, or refuses an address above 0xFFFF or one where `MEM_WRITABLE` is false (held as
ranges, log entry 17), changing nothing. -/
def Obligations.MemWriteStoresOneByteOrRefuses : Prop :=
  ∀ (addr : Nat) (v : Byte) (s : State),
    (s.mem.wf = true → addr ≤ 0xFFFF → (∀ r ∈ s.cfg.unwritable, ¬(r.lo ≤ addr ∧ addr ≤ r.hi)) →
      ∃ t, memWrite addr v s = .ok t ∧ t = { s with mem := t.mem } ∧ StoresByte s t addr v) ∧
    (0xFFFF < addr ∨ (∃ r ∈ s.cfg.unwritable, r.lo ≤ addr ∧ addr ≤ r.hi) →
      memWrite addr v s = .error (.writeOutOfMemory addr s))

/-- Two canonical memories with the same byte at every address are the same data (the model's canonical form, log entry 2). -/
def Obligations.EqualContentsAreEqualMemories : Prop :=
  ∀ m n : Memory, m.wf = true → n.wf = true → (∀ addr, addr ≤ 0xFFFF → m.read addr = n.read addr) → m = n

/-- R47, R49: a byte stored by STA or STX at the address PC stands at is what the very next step fetches, with nothing in between:
an unpopulated byte faults as that byte, a byte that is a whole instruction runs as that instruction. -/
def Obligations.StoreIsSeenByTheNextFetch : Prop :=
  ∀ (i : Instr) (s t : State) (v : Byte), s.mem.wf = true →
    (i.kind = .sta ∧ v = s.a.setWidth 8) ∨ (i.kind = .stx ∧ v = s.x.setWidth 8) → exec i s = .next t →
    instrAddr i s = .ok t.pc.toNat → t.canRead t.pc.toNat = true →
    (t.cfg.opTable.lookup v = none → step t = .fault (.unknownOperation v t)) ∧
    (∀ j, decode t.cfg.opTable [v] = .ok (j, []) → t.pc.toNat < 0xFFFF →
      step t = exec j { t with ir := v, pc := BitVec.ofNat 16 (t.pc.toNat + 1), operand := 0x0000#16 })

/-! ### Encoding -/

/-- R61, R62: the operand length of each mode, and the raw operand of one and of two operand bytes. -/
def Obligations.OperandLengthAndAssembly : Prop :=
  (operandLength .implied = 0 ∧ operandLength .accumulator = 0 ∧ operandLength .immediate = 1 ∧
    operandLength .zeroPage = 1 ∧ operandLength .zeroPageX = 1 ∧ operandLength .indirectX = 1 ∧
    operandLength .indirectY = 1 ∧ operandLength .relative = 1 ∧ operandLength .absolute = 2 ∧
    operandLength .absoluteX = 2 ∧ operandLength .absoluteY = 2) ∧
  (∀ bs, takeOperand 0 bs = some (0#16, bs)) ∧
  (∀ b1 bs, ∃ w : Word, takeOperand 1 (b1 :: bs) = some (w, bs) ∧ w.toNat = b1.toNat) ∧
  (∀ b1 b2 bs, ∃ w : Word, takeOperand 2 (b1 :: b2 :: bs) = some (w, bs) ∧ w.toNat = b1.toNat + 256 * b2.toNat)

/-- A few words written out from R60, R62 and R64 decode to the instructions they stand for. -/
def Obligations.WrittenOutBytesDecode : Prop :=
  decode defaultTable [0b01101001#8, 0b00010000#8] = .ok (.adcImmediate 0x10#8, []) ∧
  decode defaultTable [0b10011101#8, 0b00000000#8, 0b00100000#8] = .ok (.staAbsoluteX 0x2000#16, []) ∧
  decode defaultTable [0b00100000#8, 0b00001000#8, 0b10000000#8] = .ok (.jsr 0x8008#16, []) ∧
  decode defaultTable [0b11010000#8, 0b11111011#8] = .ok (.bne 0xFB#8, []) ∧
  decode defaultTable [0b00001010#8, 0b11101010#8] = .ok (.aslAccumulator, [0b11101010#8]) ∧
  decode defaultTable [0b00000010#8] = .error (.unknownOperation 0x02#8)

/-- R64: the default table is well-formed, 42 of its 256 slots are populated, and (JMP, Relative) has no byte. -/
def Obligations.DefaultTableShape : Prop :=
  defaultTable.wellFormed = true ∧
  ((List.range 256).filter fun b => (defaultTable.lookup (BitVec.ofNat 8 b)).isSome).length = 42 ∧
  defaultTable.byteOf .jmp .relative = none

/-- R63, R65: under a well-formed table, an entry's byte is the slot it is found in, and the decoder reads back every
instruction it encodes, whatever bytes follow. -/
def Obligations.DecodeOfEncode : Prop :=
  ∀ (t : OpTable) (i : Instr) (bs rest : List Byte), t.wellFormed = true → encode t i = some bs →
    decode t (bs ++ rest) = .ok (i, rest)

/-- R64: under the default table every instruction but (JMP, Relative) has an encoding, of the length of its format. -/
def Obligations.DefaultTableEncodesEveryInstruction : Prop :=
  ∀ i : Instr, (i.kind = .jmp ∧ i.mode = .relative → encode defaultTable i = none) ∧
    (¬(i.kind = .jmp ∧ i.mode = .relative) → ∃ bs, encode defaultTable i = some bs ∧ bs.length = i.length)

/-- R63: under the default table each instruction has one encoding: bytes that decode to it are that encoding. -/
def Obligations.EncodeOfDecode : Prop :=
  ∀ (bs rest : List Byte) (i : Instr), decode defaultTable bs = .ok (i, rest) →
    ∃ e, encode defaultTable i = some e ∧ bs = e ++ rest

/-- R85, R86, R154: a pair selects an instruction exactly when it is one of the 43 of R85, and then that instruction has the
pair's kind and mode; a kind without a handler and a pair outside R85 are each rejected by name. -/
def Obligations.SupportedPairsAreThe43 : Prop :=
  ∀ (k : InstructionKind) (m : AddressingModeKind) (op : Word),
    ((∃ ms, (k, ms) ∈ supportedPairs ∧ m ∈ ms) →
      ∃ i, selectInstr k m op = .ok i ∧ i.kind = k ∧ i.mode = m) ∧
    (∀ name, k = .other name → selectInstr k m op = .error (.unimplementedInstruction name)) ∧
    ((∀ name, k ≠ .other name) → (∀ ms, (k, ms) ∈ supportedPairs → m ∉ ms) →
      selectInstr k m op = .error (.unsupportedAddressingMode k m))

/-! ### The step -/

/-- R80, R83, R84: where the bytes at PC decode to an instruction and PC can pass it, the step is that instruction's meaning, in
the state in which IR and OPERAND are set and PC is past the instruction. -/
def Obligations.StepRunsTheDecodedInstruction : Prop :=
  ∀ (s : State) (i : Instr), s.canReadFrom s.pc.toNat i.length = true → s.pc.toNat + i.length ≤ 0xFFFF →
    decode s.cfg.opTable (s.bytesFrom s.pc.toNat i.length) = .ok (i, []) →
    step s = exec i { s with ir := s.byteAt s.pc.toNat, pc := BitVec.ofNat 16 (s.pc.toNat + i.length), operand := i.operand }

/-- R81: where the opcode byte cannot be read, the step faults and nothing has changed. -/
def Obligations.RefusedOpcodeReadFaults : Prop :=
  ∀ s : State, s.canRead s.pc.toNat = false → step s = .fault (.readOutOfMemory s.pc.toNat s)

/-- R82, R152: an unpopulated opcode byte faults with the byte, and nothing has changed. -/
def Obligations.UnpopulatedByteFaults : Prop :=
  ∀ s : State, s.canRead s.pc.toNat = true → s.cfg.opTable.lookup (s.byteAt s.pc.toNat) = none →
    step s = .fault (.unknownOperation (s.byteAt s.pc.toNat) s)

/-- R83: an instruction that PC cannot pass faults with `RegisterOverflowError`, PC at 0xFFFF, IR set, nothing else changed,
when those of its bytes that exist can be read. -/
def Obligations.FetchPastTheTopFaults : Prop :=
  ∀ (s : State) (e : OperationCode), s.cfg.opTable.lookup (s.byteAt s.pc.toNat) = some e →
    0xFFFF < s.pc.toNat + 1 + operandLength e.mode →
    (∀ addr, s.pc.toNat ≤ addr → addr ≤ 0xFFFF → s.canRead addr = true) →
    step s = .fault (.registerOverflow .pc { s with ir := s.byteAt s.pc.toNat, pc := 0xFFFF#16 })

/-- R83, R161: an operand byte that cannot be read faults, IR set and PC at that byte, nothing else changed. -/
def Obligations.RefusedOperandReadFaults : Prop :=
  ∀ (s : State) (e : OperationCode) (k : Nat), s.cfg.opTable.lookup (s.byteAt s.pc.toNat) = some e →
    s.canReadFrom s.pc.toNat (k + 1) = true → k < operandLength e.mode → s.pc.toNat + k + 1 ≤ 0xFFFF →
    s.canRead (s.pc.toNat + k + 1) = false →
    step s = .fault (.readOutOfMemory (s.pc.toNat + k + 1)
      { s with ir := s.byteAt s.pc.toNat, pc := BitVec.ofNat 16 (s.pc.toNat + k + 1) })

/-- R86, R153, R154: an entry that selects no instruction faults by name after the fetch: IR and OPERAND set, PC past the
instruction, nothing else changed. The default table has no such entry. -/
def Obligations.UnselectedEntryFaultsAfterFetch : Prop :=
  (∀ e ∈ defaultTable, e.mode ∈ supported e.kind) ∧
  ∀ (s : State) (e : OperationCode) (op : Word), s.cfg.opTable.lookup (s.byteAt s.pc.toNat) = some e →
    s.canReadFrom s.pc.toNat (1 + operandLength e.mode) = true → s.pc.toNat + 1 + operandLength e.mode ≤ 0xFFFF →
    takeOperand (operandLength e.mode) (s.bytesFrom (s.pc.toNat + 1) (operandLength e.mode)) = some (op, []) →
    (∀ name, e.kind = .other name →
      step s = .fault (.unimplementedInstruction name
        { s with ir := s.byteAt s.pc.toNat, operand := op, pc := BitVec.ofNat 16 (s.pc.toNat + 1 + operandLength e.mode) })) ∧
    ((∀ name, e.kind ≠ .other name) → e.mode ∉ supported e.kind →
      step s = .fault (.unsupportedAddressingMode e.kind e.mode
        { s with ir := s.byteAt s.pc.toNat, operand := op, pc := BitVec.ofNat 16 (s.pc.toNat + 1 + operandLength e.mode) }))

/-! ### The resolver -/

/-- R92 to R96: the effective addresses of the direct modes, no sum reduced, and their source values: the byte read there. -/
def Obligations.DirectEffectiveAddresses : Prop :=
  ∀ (k : InstructionKind) (op : Word) (s : State),
    ∀ e ∈ [(AddressingModeKind.zeroPage, op.toNat), (.zeroPageX, op.toNat + s.x.toNat), (.absolute, op.toNat),
        (.absoluteX, op.toNat + s.x.toNat), (.absoluteY, op.toNat + s.y.toNat)],
      effAddr k e.1 op s = .ok e.2 ∧ sourceValue k e.1 op s = memRead e.2 s

/-- R97, R98: the indirect modes read their pointer low byte first, high byte at the next address without wrap; IndirectX takes the
pointer's address modulo 256, IndirectY adds Y to the pointer without reducing the sum; a refused pointer read is the error; the
source value is the byte read at the effective address. -/
def Obligations.IndirectEffectiveAddresses : Prop :=
  ∀ (k : InstructionKind) (op : Word) (s : State) (p : Nat),
    (p = (op.toNat + s.x.toNat) % 0x100 →
      (s.canRead p = true → s.canRead (p + 1) = true →
        effAddr k .indirectX op s = .ok ((s.byteAt p).toNat + 0x100 * (s.byteAt (p + 1)).toNat)) ∧
      (s.canRead p = false → effAddr k .indirectX op s = .error (.readOutOfMemory p s)) ∧
      (s.canRead p = true → s.canRead (p + 1) = false → effAddr k .indirectX op s = .error (.readOutOfMemory (p + 1) s))) ∧
    (p = op.toNat →
      (s.canRead p = true → s.canRead (p + 1) = true →
        effAddr k .indirectY op s = .ok ((s.byteAt p).toNat + 0x100 * (s.byteAt (p + 1)).toNat + s.y.toNat)) ∧
      (s.canRead p = false → effAddr k .indirectY op s = .error (.readOutOfMemory p s)) ∧
      (s.canRead p = true → s.canRead (p + 1) = false → effAddr k .indirectY op s = .error (.readOutOfMemory (p + 1) s))) ∧
    (∀ m ∈ [AddressingModeKind.indirectX, .indirectY], ∀ ea, effAddr k m op s = .ok ea → sourceValue k m op s = memRead ea s)

/-- From R90, R91, R101 to R103: an immediate source value is the operand's low byte; ASL's in Accumulator mode is the 8-bit value
of A; in a memory mode it is the byte at the effective address, refused where that address is not accepted, an address above
0xFFFF among them, and refused as the address itself is. Where a mode has no effective address or no source value and one is
asked for, `UnsupportedAddressingModeError`: that error of the resolver is the model's choice, after R85 (log entry 21). -/
def Obligations.SourceValueByMode : Prop :=
  ∀ (k : InstructionKind) (m : AddressingModeKind) (op : Word) (s : State),
    (m = .immediate → ∃ v : Byte, sourceValue k m op s = .ok v ∧ v.toNat = op.toNat % 0x100) ∧
    (m = .accumulator → k = .asl → ∃ v : Byte, sourceValue k m op s = .ok v ∧ v.toNat = s.a.toNat % 0x100) ∧
    (m.hasAddr = true → ∀ ea, effAddr k m op s = .ok ea →
      (s.canRead ea = true → sourceValue k m op s = .ok (s.byteAt ea)) ∧
      (s.canRead ea = false → sourceValue k m op s = .error (.readOutOfMemory ea s)) ∧
      (0xFFFF < ea → s.canRead ea = false)) ∧
    (m.hasAddr = true → ∀ f, effAddr k m op s = .error f → sourceValue k m op s = .error f) ∧
    (m.hasAddr = true ↔ m ∉ [.implied, .accumulator, .immediate, .relative]) ∧
    (m.hasAddr = false → effAddr k m op s = .error (.unsupportedAddressingMode k m s)) ∧
    (m = .implied ∨ m = .relative ∨ m = .accumulator ∧ k ≠ .asl →
      sourceValue k m op s = .error (.unsupportedAddressingMode k m s))

/-- R132: a relative jump by any displacement is checked; the target never wraps. -/
def Obligations.RelativeJumpIsChecked : Prop :=
  ∀ (s : State) (d : Int), JumpsBy s d (finish (relativeJump d s))

/-- R99: the displacement of a Relative operand is its low byte as two's complement. -/
def Obligations.DisplacementIsSigned : Prop :=
  ∀ op : Word, displacement op = if op.toNat % 0x100 < 0x80 then (op.toNat % 0x100 : Int) else (op.toNat % 0x100 : Int) - 0x100

/-! ### Arithmetic and logic -/

/-- R110: ADC, in all eight modes. With a source value, it completes: A is the raw sum modulo 256, C, Z, N, V are set from the raw
sum, nothing else changes. Without one, it faults with `ReadOutOfMemoryError` and nothing has changed. -/
def Obligations.AdcAddsWithCarry : Prop :=
  (∀ e ∈ [(0x69#8, AddressingModeKind.immediate), (0x65#8, .zeroPage), (0x75#8, .zeroPageX), (0x6D#8, .absolute),
      (0x7D#8, .absoluteX), (0x79#8, .absoluteY), (0x61#8, .indirectX), (0x71#8, .indirectY)],
    defaultTable.lookup e.1 = some ⟨e.1, .adc, e.2⟩) ∧
  ∀ (i : Instr) (s : State), i.kind = .adc →
    (∀ m : Byte, instrSource i s = .ok m →
      let r := s.a.toNat + m.toNat + (s.p.getLsbD 0).toNat
      ∃ p : Byte, exec i s = .next { s with a := BitVec.ofNat 16 (r % 0x100), p := p } ∧
        p.getLsbD 0 = decide (0xFF < r) ∧ p.getLsbD 1 = decide (r % 0x100 = 0) ∧ p.getLsbD 7 = r.testBit 7 ∧
        p.getLsbD 6 = (!(s.a.getLsbD 7 ^^ m.getLsbD 7) && (s.a.getLsbD 7 ^^ r.testBit 7)) ∧
        AgreesOutside [0, 1, 6, 7] p s.p) ∧
    (∀ f, instrSource i s = .error f → exec i s = .fault f ∧ ∃ addr, f = .readOutOfMemory addr s)

/-- R110, the arithmetic law: with an 8-bit accumulator, V is set exactly when the signed sum falls outside -128 to +127, and A
and C together hold the exact unsigned sum. -/
def Obligations.AdcOverflowIsSignedOverflow : Prop :=
  ∀ (i : Instr) (s t : State) (m : Byte), i.kind = .adc → s.a.toNat ≤ 0xFF → instrSource i s = .ok m → exec i s = .next t →
    let signed := signedByte (lowByte s.a) + signedByte m + (s.flag .c).toNat
    (t.flag .v = true ↔ signed < -128 ∨ 127 < signed) ∧
    t.a.toNat + 0x100 * (t.flag .c).toNat = s.a.toNat + m.toNat + (s.flag .c).toNat

/-- R111: BIT, in both modes: N and V are bits 7 and 6 of the source value, Z tests it against A, nothing else changes; without a
source value it faults and nothing has changed. -/
def Obligations.BitTestsTheSourceValue : Prop :=
  defaultTable.lookup 0x24#8 = some ⟨0x24#8, .bit, .zeroPage⟩ ∧ defaultTable.lookup 0x2C#8 = some ⟨0x2C#8, .bit, .absolute⟩ ∧
  ∀ (i : Instr) (s : State), i.kind = .bit →
    (∀ m : Byte, instrSource i s = .ok m →
      ∃ p : Byte, exec i s = .next { s with p := p } ∧
        p.getLsbD 7 = m.getLsbD 7 ∧ p.getLsbD 6 = m.getLsbD 6 ∧
        p.getLsbD 1 = decide ((m.toNat &&& s.a.toNat) &&& 0xFF = 0) ∧ AgreesOutside [1, 6, 7] p s.p) ∧
    (∀ f, instrSource i s = .error f → exec i s = .fault f ∧ ∃ addr, f = .readOutOfMemory addr s)

/-- R112: ASL in Accumulator mode shifts the 8-bit value of A and completes in every state; in a memory mode it completes where its byte can be read and written,
storing at the address it read; a refused read changes nothing, a refused write-back leaves the three flags written. -/
def Obligations.AslShiftsLeft : Prop :=
  (∀ e ∈ [(0x0A#8, AddressingModeKind.accumulator), (0x06#8, .zeroPage), (0x16#8, .zeroPageX), (0x0E#8, .absolute),
      (0x1E#8, .absoluteX)], defaultTable.lookup e.1 = some ⟨e.1, .asl, e.2⟩) ∧
  (∀ s : State, let raw := (s.a.toNat % 0x100) <<< 1
    ∃ p : Byte, exec .aslAccumulator s = .next { s with a := BitVec.ofNat 16 (raw % 0x100), p := p } ∧
      p.getLsbD 0 = decide (0xFF < raw) ∧ p.getLsbD 1 = decide (raw % 0x100 = 0) ∧ p.getLsbD 7 = raw.testBit 7 ∧
      AgreesOutside [0, 1, 7] p s.p) ∧
  (∀ (i : Instr) (s : State) (ea : Nat), i.kind = .asl → i.mode ≠ .accumulator → s.mem.wf = true →
    instrAddr i s = .ok ea →
    (s.canRead ea = false → exec i s = .fault (.readOutOfMemory ea s)) ∧
    (s.canRead ea = true →
      let raw := (s.byteAt ea).toNat <<< 1
      ∃ p : Byte, p.getLsbD 0 = decide (0xFF < raw) ∧ p.getLsbD 1 = decide (raw % 0x100 = 0) ∧ p.getLsbD 7 = raw.testBit 7 ∧
        AgreesOutside [0, 1, 7] p s.p ∧
        (s.canWrite ea = true →
          ∃ t, exec i s = .next t ∧ t = { s with p := p, mem := t.mem } ∧ StoresByte s t ea (BitVec.ofNat 8 (raw % 0x100))) ∧
        (s.canWrite ea = false → exec i s = .fault (.writeOutOfMemory ea { s with p := p }))))

/-! ### Loads and stores -/

/-- R120: LDA, in all eight modes. -/
def Obligations.LdaLoadsTheSourceValue : Prop :=
  (∀ e ∈ [(0xA9#8, AddressingModeKind.immediate), (0xA5#8, .zeroPage), (0xB5#8, .zeroPageX), (0xAD#8, .absolute),
      (0xBD#8, .absoluteX), (0xB9#8, .absoluteY), (0xA1#8, .indirectX), (0xB1#8, .indirectY)],
    defaultTable.lookup e.1 = some ⟨e.1, .lda, e.2⟩) ∧
  ∀ (i : Instr) (s : State), i.kind = .lda →
    (∀ m : Byte, instrSource i s = .ok m →
      ∃ p : Byte, exec i s = .next { s with a := m.setWidth 16, p := p } ∧
        p.getLsbD 1 = decide (m = 0x00#8) ∧ p.getLsbD 7 = m.getLsbD 7 ∧ AgreesOutside [1, 7] p s.p) ∧
    (∀ f, instrSource i s = .error f → exec i s = .fault f ∧ ∃ addr, f = .readOutOfMemory addr s)

/-- R121: LDX loads its immediate in every state; it raises nothing. Every other mode is unsupported. -/
def Obligations.LdxLoadsTheImmediate : Prop :=
  defaultTable.lookup 0xA2#8 = some ⟨0xA2#8, .ldx, .immediate⟩ ∧
  (∀ (op : Byte) (s : State), ∃ p : Byte, exec (.ldx op) s = .next { s with x := op.setWidth 16, p := p } ∧
    p.getLsbD 1 = decide (op = 0x00#8) ∧ p.getLsbD 7 = op.getLsbD 7 ∧ AgreesOutside [1, 7] p s.p) ∧
  ∀ (m : AddressingModeKind) (op : Word), m ≠ .immediate → selectInstr .ldx m op = .error (.unsupportedAddressingMode .ldx m)

/-- R122: STA, in all seven modes: the low byte of A at the effective address, no register and no flag changed, every other byte
as before; a refused pointer read or a refused write changes nothing. -/
def Obligations.StaStoresA : Prop :=
  (∀ e ∈ [(0x85#8, AddressingModeKind.zeroPage), (0x95#8, .zeroPageX), (0x8D#8, .absolute), (0x9D#8, .absoluteX),
      (0x99#8, .absoluteY), (0x81#8, .indirectX), (0x91#8, .indirectY)],
    defaultTable.lookup e.1 = some ⟨e.1, .sta, e.2⟩) ∧
  ∀ (i : Instr) (s : State), i.kind = .sta → s.mem.wf = true →
    (∀ ea, instrAddr i s = .ok ea →
      (s.canWrite ea = true → ∃ t, exec i s = .next t ∧ t = { s with mem := t.mem } ∧ StoresByte s t ea (s.a.setWidth 8)) ∧
      (s.canWrite ea = false → exec i s = .fault (.writeOutOfMemory ea s)) ∧
      (0xFFFF < ea → s.canWrite ea = false)) ∧
    (∀ f, instrAddr i s = .error f → exec i s = .fault f ∧ ∃ addr, f = .readOutOfMemory addr s)

/-- R123: STX, in both modes: the low byte of X at the operand's address. -/
def Obligations.StxStoresX : Prop :=
  defaultTable.lookup 0x86#8 = some ⟨0x86#8, .stx, .zeroPage⟩ ∧ defaultTable.lookup 0x8E#8 = some ⟨0x8E#8, .stx, .absolute⟩ ∧
  ∀ (i : Instr) (s : State), i.kind = .stx → s.mem.wf = true → instrAddr i s = .ok i.operand.toNat ∧
    (s.canWrite i.operand.toNat = true →
      ∃ t, exec i s = .next t ∧ t = { s with mem := t.mem } ∧ StoresByte s t i.operand.toNat (s.x.setWidth 8)) ∧
    (s.canWrite i.operand.toNat = false → exec i s = .fault (.writeOutOfMemory i.operand.toNat s))

/-! ### Control transfer -/

/-- R130: JMP sets PC to its operand in Absolute mode and moves it by its signed operand in Relative mode, a pair that has no byte
in the default table; nothing else changes. -/
def Obligations.JmpJumps : Prop :=
  defaultTable.lookup 0x4C#8 = some ⟨0x4C#8, .jmp, .absolute⟩ ∧ defaultTable.byteOf .jmp .relative = none ∧
  (∀ (op : Word) (s : State), exec (.jmpAbsolute op) s = .next { s with pc := op }) ∧
  (∀ (op : Byte) (s : State), JumpsBy s (signedByte op) (exec (.jmpRelative op) s))

/-- R131: JSR pushes the high byte of PC at `STACK_BASE + SP` and the low byte one below, SP falls by exactly 2, PC takes the
operand. Each refused write and each decrement at 0 raises its error with the effects of the earlier lines kept. -/
def Obligations.JsrPushesThenJumps : Prop :=
  defaultTable.lookup 0x20#8 = some ⟨0x20#8, .jsr, .absolute⟩ ∧
  ∀ (op : Word) (s : State) (top : Nat), s.mem.wf = true → top = s.cfg.stackBase.toNat + s.sp.toNat →
    (2 ≤ s.sp.toNat → s.canWrite top = true → s.canWrite (top - 1) = true →
      ∃ t, exec (.jsr op) s = .next t ∧ t = { s with sp := BitVec.ofNat 16 (s.sp.toNat - 2), pc := op, mem := t.mem } ∧
        t.byteAt top = highByte s.pc ∧ t.byteAt (top - 1) = lowByte s.pc ∧
        ∀ b, b ≠ top → b ≠ top - 1 → t.byteAt b = s.byteAt b) ∧
    (s.canWrite top = false → exec (.jsr op) s = .fault (.writeOutOfMemory top s)) ∧
    (s.sp.toNat = 0 → s.canWrite top = true →
      ∃ t, exec (.jsr op) s = .fault (.registerUnderflow .sp t) ∧ t = { s with mem := t.mem } ∧
        StoresByte s t top (highByte s.pc)) ∧
    (1 ≤ s.sp.toNat → s.canWrite top = true → s.canWrite (top - 1) = false →
      ∃ t, exec (.jsr op) s = .fault (.writeOutOfMemory (top - 1) t) ∧
        t = { s with sp := BitVec.ofNat 16 (s.sp.toNat - 1), mem := t.mem } ∧ StoresByte s t top (highByte s.pc)) ∧
    (s.sp.toNat = 1 → s.canWrite top = true → s.canWrite (top - 1) = true →
      ∃ t, exec (.jsr op) s = .fault (.registerUnderflow .sp t) ∧ t = { s with sp := 0x0000#16, mem := t.mem } ∧
        t.byteAt top = highByte s.pc ∧ t.byteAt (top - 1) = lowByte s.pc ∧
        ∀ b, b ≠ top → b ≠ top - 1 → t.byteAt b = s.byteAt b)

/-- R133 to R137: each branch makes the relative jump exactly when its flag has its value, and otherwise changes nothing. -/
def Obligations.BranchesFollowTheirFlags : Prop :=
  (∀ e ∈ [(0xB0#8, InstructionKind.bcs), (0x90#8, .bcc), (0xF0#8, .beq), (0xD0#8, .bne)],
    defaultTable.lookup e.1 = some ⟨e.1, e.2, .relative⟩) ∧
  ∀ (op : Byte) (s : State),
    (s.p.getLsbD 0 = true → JumpsBy s (signedByte op) (exec (.bcs op) s) ∧ exec (.bcc op) s = .next s) ∧
    (s.p.getLsbD 0 = false → exec (.bcs op) s = .next s ∧ JumpsBy s (signedByte op) (exec (.bcc op) s)) ∧
    (s.p.getLsbD 1 = true → JumpsBy s (signedByte op) (exec (.beq op) s) ∧ exec (.bne op) s = .next s) ∧
    (s.p.getLsbD 1 = false → exec (.beq op) s = .next s ∧ JumpsBy s (signedByte op) (exec (.bne op) s))

/-! ### Flag instructions and NOP -/

/-- R140, R141, R142: CLC clears bit 0 of P, SEC sets it, NOP changes nothing; each completes in every state. -/
def Obligations.FlagInstructionsAndNop : Prop :=
  defaultTable.lookup 0x18#8 = some ⟨0x18#8, .clc, .implied⟩ ∧ defaultTable.lookup 0x38#8 = some ⟨0x38#8, .sec, .implied⟩ ∧
  defaultTable.lookup 0xEA#8 = some ⟨0xEA#8, .nop, .implied⟩ ∧
  ∀ s : State, exec .clc s = .next { s with p := s.p &&& 0xFE#8 } ∧ exec .sec s = .next { s with p := s.p ||| 0x01#8 } ∧
    exec .nop s = .next s

/-! ### Errors -/

/-- R159: which instruction can raise which error. -/
def Obligations.HandlerErrorsByInstruction : Prop :=
  ∀ (i : Instr) (s : State) (f : Fault), exec i s = .fault f →
    (i.kind ∉ [.ldx, .clc, .sec, .nop] ∧ i ≠ .aslAccumulator ∧ ¬(i.kind = .jmp ∧ i.mode = .absolute)) ∧
    (i.kind ∈ [.adc, .lda, .bit] → i.mode ≠ .immediate ∧ ∃ addr, f = .readOutOfMemory addr f.after) ∧
    (i.kind = .asl → (∃ addr, f = .readOutOfMemory addr f.after) ∨ (∃ addr, f = .writeOutOfMemory addr f.after)) ∧
    (i.kind = .sta → (∃ addr, f = .writeOutOfMemory addr f.after) ∨
      ((i.mode = .indirectX ∨ i.mode = .indirectY) ∧ ∃ addr, f = .readOutOfMemory addr f.after)) ∧
    (i.kind = .stx → ∃ addr, f = .writeOutOfMemory addr f.after) ∧
    (i.kind = .jsr → (∃ addr, f = .writeOutOfMemory addr f.after) ∨ f = .registerUnderflow .sp f.after) ∧
    (i.kind ∈ [.jmp, .bcs, .bcc, .beq, .bne] → f = .registerOverflow .pc f.after ∨ f = .registerUnderflow .pc f.after)

/-- R161: what has changed when an instruction's own effect raises an error. -/
def Obligations.FaultedStateByInstruction : Prop :=
  ∀ (i : Instr) (s : State) (f : Fault), exec i s = .fault f →
    (i.kind ∈ [.lda, .adc, .bit, .sta, .stx] → f.after = s) ∧
    (i.kind = .asl → f.after = { s with p := f.after.p } ∧ AgreesOutside [0, 1, 7] f.after.p s.p ∧
      (∀ addr, f = .readOutOfMemory addr f.after → f.after = s)) ∧
    (i.kind ∈ [.jmp, .bcs, .bcc, .beq, .bne] →
      (f = .registerOverflow .pc { s with pc := 0xFFFF#16 }) ∨ (f = .registerUnderflow .pc { s with pc := 0x0000#16 }))

/-! ### The end of a run, and the table build -/

/-- R195 (b): a run stops before the step at HALT_PC, in the state of that moment; nothing is fetched there. -/
def Obligations.RunStopsAtHaltPc : Prop :=
  ∀ (s : State) (n : Nat), s.cfg.haltPc = some s.pc → runSteps n s = .halted s

/-- R163, R195: a run of `m + n` steps is a run of `m` steps and then of `n`; a halted run and a faulted run take no further
step. -/
def Obligations.RunsComposeAndEndsAreFinal : Prop :=
  ∀ (m n : Nat) (s : State),
    (∀ t, runSteps m s = .running t → runSteps (m + n) s = runSteps n t) ∧
    (∀ t, runSteps m s = .halted t → runSteps (m + n) s = .halted t ∧ t.cfg.haltPc = some t.pc) ∧
    (∀ f, runSteps m s = .faulted f → runSteps (m + n) s = .faulted f)

/-- R65, R69: a table that the build answers is well-formed, so no step runs against a table that violates R65. The resource's
spelling is the model's reading of R68 and D24 (log entry 15). -/
def Obligations.BuiltTablesAreWellFormed : Prop :=
  ∀ (accepted : List String) (resource : Option (List (List Char))) (t : OpTable),
    buildTable accepted resource = .ok t → t.wellFormed = true

/-- R69: a resource with a malformed line, with two lines of one key, or that cannot be read builds no table; the build reports
`DecodeTableError`. Which lines parse is the model's reading of R68 and D24 (log entry 15). -/
def Obligations.MalformedResourceBuildsNoTable : Prop :=
  (∀ accepted : List String, buildTable accepted none = .error .unreadable) ∧
  (∀ (accepted : List String) (before after : List (List Char)) (line : List Char) (e : EntryProblem),
    parseEntry accepted line = .error e →
    ∃ problems, buildTable accepted (some (before ++ line :: after)) = .error (.malformed problems)) ∧
  (∀ (accepted : List String) (before between after : List (List Char)) (line line' : List Char) (c c' : OperationCode),
    parseEntry accepted line = .ok c → parseEntry accepted line' = .ok c' → c.rawByte = c'.rawByte →
    ∃ problems, buildTable accepted (some (before ++ line :: between ++ line' :: after)) = .error (.malformed problems))
end

