-- ==== Sys2Proof/Laws/PerInstr.lean ====
section
/-! SUPPORT. Statements about every instruction as syntax, one lemma per constructor of `Instr`. -/

namespace Sys2Proof.Laws

/-- A byte extended to a word and cut back is the byte. -/
theorem lowByte_setWidth (op : Byte) : lowByte (op.setWidth 16) = op := by
  apply BitVec.eq_of_toNat_eq
  simp [lowByte]

namespace RoundTrip

/-- The kind, the mode and the raw operand of an instruction select that instruction (R84, R85: a handler looks only at kind, mode
and operand). -/
def Statement (i : Instr) : Prop := selectInstr i.kind i.mode i.operand = .ok i

theorem adcImmediate (op : Byte) : Statement (.adcImmediate op) := congrArg (fun b => Except.ok (Instr.adcImmediate b)) (lowByte_setWidth op)
theorem adcZeroPage (op : Byte) : Statement (.adcZeroPage op) := congrArg (fun b => Except.ok (Instr.adcZeroPage b)) (lowByte_setWidth op)
theorem adcZeroPageX (op : Byte) : Statement (.adcZeroPageX op) := congrArg (fun b => Except.ok (Instr.adcZeroPageX b)) (lowByte_setWidth op)
theorem adcAbsolute (op : Word) : Statement (.adcAbsolute op) := rfl
theorem adcAbsoluteX (op : Word) : Statement (.adcAbsoluteX op) := rfl
theorem adcAbsoluteY (op : Word) : Statement (.adcAbsoluteY op) := rfl
theorem adcIndirectX (op : Byte) : Statement (.adcIndirectX op) := congrArg (fun b => Except.ok (Instr.adcIndirectX b)) (lowByte_setWidth op)
theorem adcIndirectY (op : Byte) : Statement (.adcIndirectY op) := congrArg (fun b => Except.ok (Instr.adcIndirectY b)) (lowByte_setWidth op)
theorem aslAccumulator : Statement .aslAccumulator := rfl
theorem aslZeroPage (op : Byte) : Statement (.aslZeroPage op) := congrArg (fun b => Except.ok (Instr.aslZeroPage b)) (lowByte_setWidth op)
theorem aslZeroPageX (op : Byte) : Statement (.aslZeroPageX op) := congrArg (fun b => Except.ok (Instr.aslZeroPageX b)) (lowByte_setWidth op)
theorem aslAbsolute (op : Word) : Statement (.aslAbsolute op) := rfl
theorem aslAbsoluteX (op : Word) : Statement (.aslAbsoluteX op) := rfl
theorem bcc (op : Byte) : Statement (.bcc op) := congrArg (fun b => Except.ok (Instr.bcc b)) (lowByte_setWidth op)
theorem bcs (op : Byte) : Statement (.bcs op) := congrArg (fun b => Except.ok (Instr.bcs b)) (lowByte_setWidth op)
theorem beq (op : Byte) : Statement (.beq op) := congrArg (fun b => Except.ok (Instr.beq b)) (lowByte_setWidth op)
theorem bitZeroPage (op : Byte) : Statement (.bitZeroPage op) := congrArg (fun b => Except.ok (Instr.bitZeroPage b)) (lowByte_setWidth op)
theorem bitAbsolute (op : Word) : Statement (.bitAbsolute op) := rfl
theorem bne (op : Byte) : Statement (.bne op) := congrArg (fun b => Except.ok (Instr.bne b)) (lowByte_setWidth op)
theorem clc : Statement .clc := rfl
theorem jmpAbsolute (op : Word) : Statement (.jmpAbsolute op) := rfl
theorem jmpRelative (op : Byte) : Statement (.jmpRelative op) := congrArg (fun b => Except.ok (Instr.jmpRelative b)) (lowByte_setWidth op)
theorem jsr (op : Word) : Statement (.jsr op) := rfl
theorem ldaImmediate (op : Byte) : Statement (.ldaImmediate op) := congrArg (fun b => Except.ok (Instr.ldaImmediate b)) (lowByte_setWidth op)
theorem ldaZeroPage (op : Byte) : Statement (.ldaZeroPage op) := congrArg (fun b => Except.ok (Instr.ldaZeroPage b)) (lowByte_setWidth op)
theorem ldaZeroPageX (op : Byte) : Statement (.ldaZeroPageX op) := congrArg (fun b => Except.ok (Instr.ldaZeroPageX b)) (lowByte_setWidth op)
theorem ldaAbsolute (op : Word) : Statement (.ldaAbsolute op) := rfl
theorem ldaAbsoluteX (op : Word) : Statement (.ldaAbsoluteX op) := rfl
theorem ldaAbsoluteY (op : Word) : Statement (.ldaAbsoluteY op) := rfl
theorem ldaIndirectX (op : Byte) : Statement (.ldaIndirectX op) := congrArg (fun b => Except.ok (Instr.ldaIndirectX b)) (lowByte_setWidth op)
theorem ldaIndirectY (op : Byte) : Statement (.ldaIndirectY op) := congrArg (fun b => Except.ok (Instr.ldaIndirectY b)) (lowByte_setWidth op)
theorem ldx (op : Byte) : Statement (.ldx op) := congrArg (fun b => Except.ok (Instr.ldx b)) (lowByte_setWidth op)
theorem nop : Statement .nop := rfl
theorem sec : Statement .sec := rfl
theorem staZeroPage (op : Byte) : Statement (.staZeroPage op) := congrArg (fun b => Except.ok (Instr.staZeroPage b)) (lowByte_setWidth op)
theorem staZeroPageX (op : Byte) : Statement (.staZeroPageX op) := congrArg (fun b => Except.ok (Instr.staZeroPageX b)) (lowByte_setWidth op)
theorem staAbsolute (op : Word) : Statement (.staAbsolute op) := rfl
theorem staAbsoluteX (op : Word) : Statement (.staAbsoluteX op) := rfl
theorem staAbsoluteY (op : Word) : Statement (.staAbsoluteY op) := rfl
theorem staIndirectX (op : Byte) : Statement (.staIndirectX op) := congrArg (fun b => Except.ok (Instr.staIndirectX b)) (lowByte_setWidth op)
theorem staIndirectY (op : Byte) : Statement (.staIndirectY op) := congrArg (fun b => Except.ok (Instr.staIndirectY b)) (lowByte_setWidth op)
theorem stxZeroPage (op : Byte) : Statement (.stxZeroPage op) := congrArg (fun b => Except.ok (Instr.stxZeroPage b)) (lowByte_setWidth op)
theorem stxAbsolute (op : Word) : Statement (.stxAbsolute op) := rfl

end RoundTrip

end Sys2Proof.Laws
end

