-- ==== Sys2Proof/Laws/Decode.lean ====
section
/-! SUPPORT. The laws of the opcode table, the decoder and the encoder. -/

namespace Sys2Proof

/-- The kind, the mode and the raw operand of an instruction select that instruction. -/
theorem selectInstr_self (i : Instr) : selectInstr i.kind i.mode i.operand = .ok i := by
  cases i with
  | adcImmediate op => exact Laws.RoundTrip.adcImmediate op
  | adcZeroPage op => exact Laws.RoundTrip.adcZeroPage op
  | adcZeroPageX op => exact Laws.RoundTrip.adcZeroPageX op
  | adcAbsolute op => exact Laws.RoundTrip.adcAbsolute op
  | adcAbsoluteX op => exact Laws.RoundTrip.adcAbsoluteX op
  | adcAbsoluteY op => exact Laws.RoundTrip.adcAbsoluteY op
  | adcIndirectX op => exact Laws.RoundTrip.adcIndirectX op
  | adcIndirectY op => exact Laws.RoundTrip.adcIndirectY op
  | aslAccumulator => exact Laws.RoundTrip.aslAccumulator
  | aslZeroPage op => exact Laws.RoundTrip.aslZeroPage op
  | aslZeroPageX op => exact Laws.RoundTrip.aslZeroPageX op
  | aslAbsolute op => exact Laws.RoundTrip.aslAbsolute op
  | aslAbsoluteX op => exact Laws.RoundTrip.aslAbsoluteX op
  | bcc op => exact Laws.RoundTrip.bcc op
  | bcs op => exact Laws.RoundTrip.bcs op
  | beq op => exact Laws.RoundTrip.beq op
  | bitZeroPage op => exact Laws.RoundTrip.bitZeroPage op
  | bitAbsolute op => exact Laws.RoundTrip.bitAbsolute op
  | bne op => exact Laws.RoundTrip.bne op
  | clc => exact Laws.RoundTrip.clc
  | jmpAbsolute op => exact Laws.RoundTrip.jmpAbsolute op
  | jmpRelative op => exact Laws.RoundTrip.jmpRelative op
  | jsr op => exact Laws.RoundTrip.jsr op
  | ldaImmediate op => exact Laws.RoundTrip.ldaImmediate op
  | ldaZeroPage op => exact Laws.RoundTrip.ldaZeroPage op
  | ldaZeroPageX op => exact Laws.RoundTrip.ldaZeroPageX op
  | ldaAbsolute op => exact Laws.RoundTrip.ldaAbsolute op
  | ldaAbsoluteX op => exact Laws.RoundTrip.ldaAbsoluteX op
  | ldaAbsoluteY op => exact Laws.RoundTrip.ldaAbsoluteY op
  | ldaIndirectX op => exact Laws.RoundTrip.ldaIndirectX op
  | ldaIndirectY op => exact Laws.RoundTrip.ldaIndirectY op
  | ldx op => exact Laws.RoundTrip.ldx op
  | nop => exact Laws.RoundTrip.nop
  | sec => exact Laws.RoundTrip.sec
  | staZeroPage op => exact Laws.RoundTrip.staZeroPage op
  | staZeroPageX op => exact Laws.RoundTrip.staZeroPageX op
  | staAbsolute op => exact Laws.RoundTrip.staAbsolute op
  | staAbsoluteX op => exact Laws.RoundTrip.staAbsoluteX op
  | staAbsoluteY op => exact Laws.RoundTrip.staAbsoluteY op
  | staIndirectX op => exact Laws.RoundTrip.staIndirectX op
  | staIndirectY op => exact Laws.RoundTrip.staIndirectY op
  | stxZeroPage op => exact Laws.RoundTrip.stxZeroPage op
  | stxAbsolute op => exact Laws.RoundTrip.stxAbsolute op

/-- A slot that a lookup finds holds an entry with that byte (R65 b). -/
theorem lookup_rawByte {t : OpTable} {b : Byte} {e : OperationCode} (h : t.lookup b = some e) : e.rawByte = b := by
  induction t with
  | nil => simp [OpTable.lookup] at h
  | cons f t ih =>
    simp only [OpTable.lookup] at h
    split at h
    · rename_i hb
      exact (Option.some.inj h) ▸ hb
    · exact ih h

/-- No slot below the first raw byte of a well-formed table is populated. -/
theorem lookup_of_lt {t : OpTable} {lo : Nat} {b : Byte} (h : t.wellFormedFrom lo = true) (hb : b.toNat < lo) :
    t.lookup b = none := by
  induction t generalizing lo with
  | nil => rfl
  | cons f t ih =>
    simp only [OpTable.wellFormedFrom, Bool.and_eq_true, decide_eq_true_eq] at h
    have hne : f.rawByte ≠ b := fun e => by rw [e] at h; omega
    simp only [OpTable.lookup, hne, if_false]
    exact ih h.2 (by omega)

/-- The byte that encodes a pair is a slot that holds the pair (R63, R65). -/
theorem lookup_byteOf {t : OpTable} {lo : Nat} {k : InstructionKind} {m : AddressingModeKind} {b : Byte}
    (h : t.wellFormedFrom lo = true) (hb : t.byteOf k m = some b) : t.lookup b = some ⟨b, k, m⟩ := by
  induction t generalizing lo with
  | nil => simp [OpTable.byteOf] at hb
  | cons f t ih =>
    simp only [OpTable.wellFormedFrom, Bool.and_eq_true, decide_eq_true_eq] at h
    simp only [OpTable.byteOf] at hb
    split at hb
    · rename_i hkm
      obtain ⟨r, k', m'⟩ := f
      simp only [Option.some.injEq] at hb hkm
      simp only [OpTable.lookup, hb, hkm.1, hkm.2, if_true]
    · have hl := ih h.2 hb
      by_cases hf : f.rawByte = b
      · rw [lookup_of_lt h.2 (by rw [hf]; omega)] at hl
        simp at hl
      · simp only [OpTable.lookup, hf, if_false, hl]

/-- The low and high bytes of a word make the word (R43, R62). -/
theorem wordOfBytes_low_high (w : Word) : wordOfBytes (lowByte w) (highByte w) = w := by
  have h1 : ∀ k, (wordOfBytes (lowByte w) (highByte w)).getLsbD k = w.getLsbD k := by
    intro k
    simp only [wordOfBytes, lowByte, highByte, BitVec.getLsbD_append, BitVec.getLsbD_setWidth, BitVec.getLsbD_ushiftRight]
    by_cases hk : k < 8
    · simp [hk]
    · by_cases hk' : k < 16
      · simp [hk, show k - 8 < 8 by omega, show 8 + (k - 8) = k by omega]
      · simp [hk, show ¬ k - 8 < 8 by omega, BitVec.getLsbD_of_ge w k (by omega)]
  exact BitVec.eq_of_getLsbD_eq fun k _ => h1 k

/-- Every raw operand of an instruction is what its operand bytes assemble to (R60, R62). -/
theorem takeOperand_operandBytes (i : Instr) (rest : List Byte) :
    takeOperand (operandLength i.mode) (operandBytes (operandLength i.mode) i.operand ++ rest) = some (i.operand, rest) := by
  have h1 : ∀ op : Byte, takeOperand 1 (operandBytes 1 (op.setWidth 16) ++ rest) = some (op.setWidth 16, rest) := by
    intro op
    simp [takeOperand, operandBytes, Laws.lowByte_setWidth]
  have h2 : ∀ op : Word, takeOperand 2 (operandBytes 2 op ++ rest) = some (op, rest) := by
    intro op
    simp [takeOperand, operandBytes, wordOfBytes_low_high]
  cases i <;> first | rfl | exact h1 _ | exact h2 _

/-- Decoding, where the table, the operand bytes and the pair are known (R61 to R63). -/
theorem decode_cons {t : OpTable} {b : Byte} {bs rest : List Byte} {e : OperationCode} {op : Word}
    (hl : t.lookup b = some e) (ho : takeOperand (operandLength e.mode) bs = some (op, rest)) {i : Instr}
    (hs : selectInstr e.kind e.mode op = .ok i) : decode t (b :: bs) = .ok (i, rest) := by
  simp [decode, hl, ho, hs]

/-- What a decoded instruction comes from (R61 to R63). -/
theorem decode_eq_ok {t : OpTable} {bs rest : List Byte} {i : Instr} (h : decode t bs = .ok (i, rest)) :
    ∃ b bs' e op, bs = b :: bs' ∧ t.lookup b = some e ∧ takeOperand (operandLength e.mode) bs' = some (op, rest) ∧
      selectInstr e.kind e.mode op = .ok i := by
  match bs with
  | [] => simp [decode] at h
  | b :: bs' =>
    simp only [decode] at h
    split at h
    · simp at h
    · rename_i e hl
      split at h
      · simp at h
      · rename_i op r ho
        split at h
        · rename_i j hs
          simp only [Except.ok.injEq, Prod.mk.injEq] at h
          exact ⟨b, bs', e, op, rfl, hl, h.2 ▸ ho, h.1 ▸ hs⟩
        · simp at h

/-- A raw operand cut to `n` operand bytes (R62). -/
def cutOperand : Nat → Word → Word
  | 0, _ => 0#16
  | 1, op => (lowByte op).setWidth 16
  | _, op => op

/-- An instruction that a pair selects has that pair, and the pair's operand, cut to its length (R85). -/
theorem selectInstr_eq_ok {k : InstructionKind} {m : AddressingModeKind} {op : Word} {i : Instr}
    (h : selectInstr k m op = .ok i) :
    i.kind = k ∧ i.mode = m ∧
      i.operand = cutOperand (operandLength m) op := by
  cases k <;> cases m <;> simp only [selectInstr, instrOf, Except.ok.injEq, reduceCtorEq] at h <;> subst h <;>
    exact ⟨rfl, rfl, rfl⟩

/-- A raw operand taken from `n` operand bytes is what those bytes assemble to (R62). -/
theorem operandBytes_takeOperand {n : Nat} {bs rest : List Byte} {op : Word} (hn : n ≤ 2)
    (h : takeOperand n bs = some (op, rest)) :
    bs = operandBytes n op ++ rest ∧
      op = cutOperand n op := by
  match n, hn, bs with
  | 0, _, bs =>
    simp only [takeOperand, Option.some.injEq, Prod.mk.injEq] at h
    exact ⟨by simp [operandBytes, h.2], h.1.symm⟩
  | 1, _, [] => simp [takeOperand] at h
  | 1, _, lo :: bs =>
    simp only [takeOperand, Option.some.injEq, Prod.mk.injEq] at h
    obtain ⟨rfl, rfl⟩ := h
    exact ⟨by simp [operandBytes, Laws.lowByte_setWidth], by simp only [cutOperand, Laws.lowByte_setWidth]⟩
  | 2, _, [] => simp [takeOperand] at h
  | 2, _, [_] => simp [takeOperand] at h
  | 2, _, lo :: hi :: bs =>
    simp only [takeOperand, Option.some.injEq, Prod.mk.injEq] at h
    obtain ⟨rfl, rfl⟩ := h
    refine ⟨?_, rfl⟩
    have hlo : lowByte (wordOfBytes lo hi) = lo := by
      apply BitVec.eq_of_getLsbD_eq
      intro k hk
      simp only [lowByte, wordOfBytes, BitVec.getLsbD_setWidth, BitVec.getLsbD_append, hk, decide_true, Bool.true_and, if_true]
    have hhi : highByte (wordOfBytes lo hi) = hi := by
      apply BitVec.eq_of_getLsbD_eq
      intro k hk
      simp only [highByte, wordOfBytes, BitVec.getLsbD_setWidth, BitVec.getLsbD_ushiftRight, BitVec.getLsbD_append, hk, decide_true, Bool.true_and, show ¬ 8 + k < 8 by omega, if_false, Nat.add_sub_cancel_left]
    simp [operandBytes, hlo, hhi]

end Sys2Proof
end

