-- ==== Sys2Proof/Laws/State.lean ====
section
/-! SUPPORT. One lemma per field per update of the state: `setReg`, `setFlag` and the three flag setters, and the reads `reg`,
`flag`, `canRead`, `canWrite` and `byteAt` after an update of another field. Later proofs cite these and unfold no record update. -/

namespace Sys2Proof.Machine

/-! ### setReg -/

@[simp] theorem setReg_a (s : State) (v : Nat) : s.setReg .a v = { s with a := BitVec.ofNat 16 v } := rfl
@[simp] theorem setReg_x (s : State) (v : Nat) : s.setReg .x v = { s with x := BitVec.ofNat 16 v } := rfl
@[simp] theorem setReg_y (s : State) (v : Nat) : s.setReg .y v = { s with y := BitVec.ofNat 16 v } := rfl
@[simp] theorem setReg_sp (s : State) (v : Nat) : s.setReg .sp v = { s with sp := BitVec.ofNat 16 v } := rfl
@[simp] theorem setReg_pc (s : State) (v : Nat) : s.setReg .pc v = { s with pc := BitVec.ofNat 16 v } := rfl

@[simp] theorem reg_a (s : State) : s.reg .a = s.a := rfl
@[simp] theorem reg_x (s : State) : s.reg .x = s.x := rfl
@[simp] theorem reg_y (s : State) : s.reg .y = s.y := rfl
@[simp] theorem reg_sp (s : State) : s.reg .sp = s.sp := rfl
@[simp] theorem reg_pc (s : State) : s.reg .pc = s.pc := rfl

/-- Get after set of the same cell. -/
theorem reg_setReg_same (s : State) (r : RegName) (v : Nat) : (s.setReg r v).reg r = BitVec.ofNat 16 v := by
  cases r <;> rfl

/-- Get after set of another cell. -/
theorem reg_setReg_other (s : State) {r q : RegName} (h : q ≠ r) (v : Nat) : (s.setReg r v).reg q = s.reg q := by
  cases r <;> cases q <;> first | rfl | exact absurd rfl h

/-- The second of two sets of one cell wins. -/
theorem setReg_setReg (s : State) (r : RegName) (v w : Nat) : (s.setReg r v).setReg r w = s.setReg r w := by
  cases r <;> rfl

/-- Setting a cell to its own value changes nothing. -/
theorem setReg_self (s : State) (r : RegName) : s.setReg r (s.reg r).toNat = s := by
  cases r <;> simp

@[simp] theorem setReg_p (s : State) (r : RegName) (v : Nat) : (s.setReg r v).p = s.p := by cases r <;> rfl
@[simp] theorem setReg_ir (s : State) (r : RegName) (v : Nat) : (s.setReg r v).ir = s.ir := by cases r <;> rfl
@[simp] theorem setReg_operand (s : State) (r : RegName) (v : Nat) : (s.setReg r v).operand = s.operand := by cases r <;> rfl
@[simp] theorem setReg_mem (s : State) (r : RegName) (v : Nat) : (s.setReg r v).mem = s.mem := by cases r <;> rfl
@[simp] theorem setReg_cfg (s : State) (r : RegName) (v : Nat) : (s.setReg r v).cfg = s.cfg := by cases r <;> rfl

/-! ### setFlag -/

@[simp] theorem setFlag_a (s : State) (f : Flag) (b : Bool) : (s.setFlag f b).a = s.a := rfl
@[simp] theorem setFlag_x (s : State) (f : Flag) (b : Bool) : (s.setFlag f b).x = s.x := rfl
@[simp] theorem setFlag_y (s : State) (f : Flag) (b : Bool) : (s.setFlag f b).y = s.y := rfl
@[simp] theorem setFlag_sp (s : State) (f : Flag) (b : Bool) : (s.setFlag f b).sp = s.sp := rfl
@[simp] theorem setFlag_pc (s : State) (f : Flag) (b : Bool) : (s.setFlag f b).pc = s.pc := rfl
@[simp] theorem setFlag_ir (s : State) (f : Flag) (b : Bool) : (s.setFlag f b).ir = s.ir := rfl
@[simp] theorem setFlag_operand (s : State) (f : Flag) (b : Bool) : (s.setFlag f b).operand = s.operand := rfl
@[simp] theorem setFlag_mem (s : State) (f : Flag) (b : Bool) : (s.setFlag f b).mem = s.mem := rfl
@[simp] theorem setFlag_cfg (s : State) (f : Flag) (b : Bool) : (s.setFlag f b).cfg = s.cfg := rfl

/-- A flag write is an update of P alone. -/
theorem setFlag_eq_with_p (s : State) (f : Flag) (b : Bool) : s.setFlag f b = { s with p := (s.setFlag f b).p } := rfl

/-! ### Reads after an update of another field -/

@[simp] theorem canRead_with_mem (s : State) (m : Memory) (k : Nat) : State.canRead { s with mem := m } k = s.canRead k := rfl
@[simp] theorem canWrite_with_mem (s : State) (m : Memory) (k : Nat) : State.canWrite { s with mem := m } k = s.canWrite k := rfl
@[simp] theorem canRead_with_p (s : State) (q : Byte) (k : Nat) : State.canRead { s with p := q } k = s.canRead k := rfl
@[simp] theorem canWrite_with_p (s : State) (q : Byte) (k : Nat) : State.canWrite { s with p := q } k = s.canWrite k := rfl
@[simp] theorem byteAt_with_mem (s : State) (m : Memory) (k : Nat) : State.byteAt { s with mem := m } k = m.read k := rfl
@[simp] theorem byteAt_with_p (s : State) (q : Byte) (k : Nat) : State.byteAt { s with p := q } k = s.byteAt k := rfl
@[simp] theorem byteAt_setReg (s : State) (r : RegName) (v k : Nat) : (s.setReg r v).byteAt k = s.byteAt k := by
  cases r <;> rfl
@[simp] theorem canRead_setReg (s : State) (r : RegName) (v k : Nat) : (s.setReg r v).canRead k = s.canRead k := by
  cases r <;> rfl
@[simp] theorem canWrite_setReg (s : State) (r : RegName) (v k : Nat) : (s.setReg r v).canWrite k = s.canWrite k := by
  cases r <;> rfl
@[simp] theorem canRead_setFlag (s : State) (f : Flag) (b : Bool) (k : Nat) : (s.setFlag f b).canRead k = s.canRead k := rfl
@[simp] theorem canWrite_setFlag (s : State) (f : Flag) (b : Bool) (k : Nat) : (s.setFlag f b).canWrite k = s.canWrite k := rfl
@[simp] theorem byteAt_setFlag (s : State) (f : Flag) (b : Bool) (k : Nat) : (s.setFlag f b).byteAt k = s.byteAt k := rfl

/-- Which addresses the port accepts depends on the configuration alone (R41). -/
theorem canRead_congr {s t : State} (h : t.cfg = s.cfg) (k : Nat) : t.canRead k = s.canRead k := by
  simp [State.canRead, h]

theorem canWrite_congr {s t : State} (h : t.cfg = s.cfg) (k : Nat) : t.canWrite k = s.canWrite k := by
  simp [State.canWrite, h]

theorem canReadFrom_congr {s t : State} (h : t.cfg = s.cfg) (n k : Nat) : t.canReadFrom k n = s.canReadFrom k n := by
  induction n generalizing k with
  | zero => rfl
  | succ n ih => simp only [State.canReadFrom, ih, canRead_congr h]

/-- What memory holds depends on memory alone. -/
theorem byteAt_congr {s t : State} (h : t.mem = s.mem) (k : Nat) : t.byteAt k = s.byteAt k := by
  simp [State.byteAt, h]

theorem bytesFrom_congr {s t : State} (h : t.mem = s.mem) (n k : Nat) : t.bytesFrom k n = s.bytesFrom k n := by
  induction n generalizing k with
  | zero => rfl
  | succ n ih => simp only [State.bytesFrom, ih, byteAt_congr h]

/-! ### Outcomes -/

@[simp] theorem finish_ok (s : State) : finish (.ok s) = .next s := rfl
@[simp] theorem finish_error (f : Fault) : finish (.error f) = .fault f := rfl

/-- A handler completes exactly when its outcome is a next state. -/
theorem finish_eq_next {r : Except Fault State} {t : State} : finish r = .next t ↔ r = .ok t := by
  cases r <;> simp [finish]

/-- A handler raises exactly when its outcome is a fault. -/
theorem finish_eq_fault {r : Except Fault State} {f : Fault} : finish r = .fault f ↔ r = .error f := by
  cases r <;> simp [finish]

/-- No handler is refused. -/
theorem finish_ne_refused (r : Except Fault State) (e : Refusal) : finish r ≠ .refused e := by
  cases r <;> simp [finish]

end Sys2Proof.Machine
end

