-- ==== Sys2Proof/Laws/Flags.lean ====
section
/-! SUPPORT. The laws of the flags register: a flag read after a flag write. -/

namespace Sys2Proof.Machine

/-- A bit of P after a flag write: the written bit, every other bit as before (R21). -/
theorem getLsbD_setFlag (s : State) (f : Flag) (b : Bool) (k : Nat) :
    (s.setFlag f b).p.getLsbD k = if k = f.bit then b else s.p.getLsbD k := by
  by_cases hk : k < 8
  · have : ∀ (p : Byte) (f : Flag) (b : Bool) (k : Fin 8),
        (if b then p ||| (1#8 <<< f.bit) else p &&& ~~~(1#8 <<< f.bit)).getLsbD k.val =
          if k.val = f.bit then b else p.getLsbD k.val := by
      intro p f b k
      cases b <;> cases f <;> fin_cases k <;> simp [Flag.bit]
    exact this s.p f b ⟨k, hk⟩
  · have hne : k ≠ f.bit := by cases f <;> simp only [Flag.bit] <;> omega
    rw [if_neg hne, BitVec.getLsbD_of_ge _ _ (by omega), BitVec.getLsbD_of_ge _ _ (by omega)]

/-- Two flags at one bit position are one flag (R20). -/
theorem Flag.bit_inj {f g : Flag} : f.bit = g.bit ↔ f = g := by
  cases f <;> cases g <;> simp [Flag.bit]

/-- A flag after a flag write (R21). -/
@[simp] theorem flag_setFlag (s : State) (f g : Flag) (b : Bool) :
    (s.setFlag f b).flag g = if g = f then b else s.flag g := by
  simp only [State.flag, getLsbD_setFlag, Flag.bit_inj]

@[simp] theorem flag_setReg (s : State) (r : RegName) (v : Nat) (g : Flag) : (s.setReg r v).flag g = s.flag g := by
  simp [State.flag]

/-- A flag of a state whose P is given. -/
theorem flag_eq_bit (s : State) (g : Flag) : s.flag g = s.p.getLsbD g.bit := rfl

/-- Agreement outside a list of bits is a question about the eight bits. -/
theorem agreesOutside_iff {ks : List Nat} {p q : Byte} :
    AgreesOutside ks p q ↔ ∀ k : Fin 8, k.val ∉ ks → p.getLsbD k.val = q.getLsbD k.val := by
  refine ⟨fun h k => h k.val, fun h k hk => ?_⟩
  by_cases h8 : k < 8
  · exact h ⟨k, h8⟩ hk
  · rw [BitVec.getLsbD_of_ge _ _ (by omega), BitVec.getLsbD_of_ge _ _ (by omega)]

end Sys2Proof.Machine
end

