-- ==== Sys2Proof/Laws/Memory.lean ====
section
/-! SUPPORT. The laws of memory as data: reading after a write, and the canonical form, which every write keeps. -/

namespace Sys2Proof.Machine

/-- A byte below the first address of a canonical memory is unlisted. -/
theorem read_of_lt {m : Memory} {lo k : Nat} (h : m.wfFrom lo = true) (hk : k < lo) : m.read k = Memory.unlisted := by
  induction m generalizing lo with
  | nil => rfl
  | cons c m ih =>
    obtain ⟨j, v⟩ := c
    simp only [Memory.wfFrom, Bool.and_eq_true, decide_eq_true_eq] at h
    have : k ≠ j := by omega
    simp only [Memory.read, this, if_false]
    exact ih h.2 (by omega)

/-- The canonical form from an address is the canonical form from any lower one. -/
theorem wfFrom_mono {m : Memory} {lo lo' : Nat} (h : m.wfFrom lo = true) (hle : lo' ≤ lo) : m.wfFrom lo' = true := by
  cases m with
  | nil => rfl
  | cons c m =>
    simp only [Memory.wfFrom, Bool.and_eq_true, decide_eq_true_eq] at h ⊢
    exact ⟨⟨by omega, h.1.2⟩, h.2⟩

theorem read_cons {m : Memory} {k j : Nat} {v : Byte} (h : m.read k = Memory.unlisted) :
    (Memory.cons k v m).read j = if j = k then v else m.read j := by
  unfold Memory.cons
  split
  · by_cases hj : j = k
    · subst hj; simp_all
    · simp [hj]
  · rfl

theorem read_write_from {m : Memory} {lo k j : Nat} {v : Byte} (h : m.wfFrom lo = true) :
    (m.write k v).read j = if j = k then v else m.read j := by
  induction m generalizing lo with
  | nil => exact read_cons rfl
  | cons c m ih =>
    obtain ⟨a, w⟩ := c
    have hw := h
    simp only [Memory.wfFrom, Bool.and_eq_true, decide_eq_true_eq] at h
    simp only [Memory.write]
    split
    · rename_i hlt
      refine read_cons (read_of_lt (lo := a) ?_ hlt)
      simp only [Memory.wfFrom, Bool.and_eq_true, decide_eq_true_eq]
      exact ⟨⟨le_refl a, h.1.2⟩, h.2⟩
    · split
      · rename_i _ heq
        subst heq
        rw [read_cons (read_of_lt h.2 (by omega))]
        by_cases hj : j = k <;> simp [Memory.read, hj]
      · rename_i _ hne
        simp only [Memory.read, ih h.2]
        by_cases hj : j = a
        · have : j ≠ k := fun e => hne (by omega)
          simp [hj, show a ≠ k from fun e => hne e.symm]
        · simp [hj]

/-- Reading after a write: the written byte at the written address, every other byte as before (R46, R47). -/
theorem read_write {m : Memory} (h : m.wf = true) (k j : Nat) (v : Byte) :
    (m.write k v).read j = if j = k then v else m.read j := read_write_from h

theorem wfFrom_cons {m : Memory} {lo k : Nat} {v : Byte} (h : m.wfFrom (k + 1) = true) (hlo : lo ≤ k) (hk : k ≤ 0xFFFF) :
    (Memory.cons k v m).wfFrom lo = true := by
  unfold Memory.cons
  split
  · exact wfFrom_mono h (by omega)
  · rename_i hv
    simp only [Memory.wfFrom, Bool.and_eq_true, decide_eq_true_eq]
    exact ⟨⟨hlo, hk, hv⟩, h⟩

theorem wfFrom_write {m : Memory} {lo k : Nat} {v : Byte} (h : m.wfFrom lo = true) (hlo : lo ≤ k) (hk : k ≤ 0xFFFF) :
    (m.write k v).wfFrom lo = true := by
  induction m generalizing lo with
  | nil => exact wfFrom_cons rfl hlo hk
  | cons c m ih =>
    obtain ⟨a, w⟩ := c
    simp only [Memory.wfFrom, Bool.and_eq_true, decide_eq_true_eq] at h
    simp only [Memory.write]
    split
    · refine wfFrom_cons ?_ hlo hk
      simp only [Memory.wfFrom, Bool.and_eq_true, decide_eq_true_eq]
      exact ⟨⟨by omega, h.1.2⟩, h.2⟩
    · split
      · rename_i _ heq
        subst heq
        exact wfFrom_cons h.2 hlo hk
      · simp only [Memory.wfFrom, Bool.and_eq_true, decide_eq_true_eq]
        exact ⟨h.1, ih h.2 (by omega)⟩

/-- A write inside the address space keeps the canonical form. -/
theorem wf_write {m : Memory} (h : m.wf = true) {k : Nat} (hk : k ≤ 0xFFFF) (v : Byte) : (m.write k v).wf = true :=
  wfFrom_write h (Nat.zero_le k) hk

end Sys2Proof.Machine
end

