-- ==== Sys2Proof/Laws/Ops.lean ====
section
/-! SUPPORT. One lemma per shared operation: everything it can do. -/

namespace Sys2Proof.Machine

@[simp] theorem raise_ne_ok {α : Type} (e : State → Fault) (s : State) (x : α) : raise e s ≠ .ok x := by simp [raise]
@[simp] theorem raise_eq_error {α : Type} (e : State → Fault) (s : State) (f : Fault) :
    (raise e s : Except Fault α) = .error f ↔ e s = f := by simp [raise]

/-- `MemRead` completes with the byte exactly where the address is accepted (R41). -/
theorem memRead_eq_ok {addr : Nat} {s : State} {v : Byte} :
    memRead addr s = .ok v ↔ s.canRead addr = true ∧ s.byteAt addr = v := by
  unfold memRead
  split <;> simp_all

/-- `MemRead` raises exactly where the address is refused, leaving the state as it is (R41, R155). -/
theorem memRead_eq_error {addr : Nat} {s : State} {f : Fault} :
    memRead addr s = .error f ↔ s.canRead addr = false ∧ f = .readOutOfMemory addr s := by
  by_cases h : s.canRead addr = true <;> simp [memRead, raise, h, @eq_comm _ f]

/-- `MemWrite` completes with the one byte written exactly where the address is accepted (R42). -/
theorem memWrite_eq_ok {addr : Nat} {v : Byte} {s t : State} :
    memWrite addr v s = .ok t ↔ s.canWrite addr = true ∧ t = { s with mem := s.mem.write addr v } := by
  by_cases h : s.canWrite addr = true <;> simp [memWrite, raise, h, @eq_comm _ t]

/-- `MemWrite` raises exactly where the address is refused, leaving the state as it is (R42, R156). -/
theorem memWrite_eq_error {addr : Nat} {v : Byte} {s : State} {f : Fault} :
    memWrite addr v s = .error f ↔ s.canWrite addr = false ∧ f = .writeOutOfMemory addr s := by
  by_cases h : s.canWrite addr = true <;> simp [memWrite, raise, h, @eq_comm _ f]

/-- An accepted address is a 16-bit address. -/
theorem canWrite_le {s : State} {addr : Nat} (h : s.canWrite addr = true) : addr ≤ 0xFFFF := by
  simp only [State.canWrite, Bool.and_eq_true, decide_eq_true_eq] at h
  exact h.1

/-- An accepted address is a 16-bit address. -/
theorem canRead_le {s : State} {addr : Nat} (h : s.canRead addr = true) : addr ≤ 0xFFFF := by
  simp only [State.canRead, Bool.and_eq_true, decide_eq_true_eq] at h
  exact h.1

/-- One unit increment (R18). -/
theorem regInc_one (r : RegName) (s : State) :
    regInc r 1 s = if s.reg r = 0xFFFF#16 then .error (.registerOverflow r s) else .ok (s.setReg r ((s.reg r).toNat + 1)) := rfl

/-- One unit decrement (R19). -/
theorem regDec_one (r : RegName) (s : State) :
    regDec r 1 s = if s.reg r = 0x0000#16 then .error (.registerUnderflow r s) else .ok (s.setReg r ((s.reg r).toNat - 1)) := rfl

/-- Whatever a checked increment does, it changes no cell but its own (R18). -/
theorem regInc_frame (r : RegName) (n : Nat) (s : State) :
    (∃ v, regInc r n s = .ok (s.setReg r v)) ∨ (∃ v, regInc r n s = .error (.registerOverflow r (s.setReg r v))) := by
  induction n generalizing s with
  | zero => exact .inl ⟨_, by rw [setReg_self]; rfl⟩
  | succ n ih =>
    simp only [regInc]
    split
    · exact .inr ⟨_, by rw [setReg_self]; rfl⟩
    · obtain ⟨v, hv⟩ | ⟨v, hv⟩ := ih (s.setReg r ((s.reg r).toNat + 1)) <;> rw [hv, setReg_setReg]
      · exact .inl ⟨v, rfl⟩
      · exact .inr ⟨v, rfl⟩

/-- Whatever a checked decrement does, it changes no cell but its own (R19). -/
theorem regDec_frame (r : RegName) (n : Nat) (s : State) :
    (∃ v, regDec r n s = .ok (s.setReg r v)) ∨ (∃ v, regDec r n s = .error (.registerUnderflow r (s.setReg r v))) := by
  induction n generalizing s with
  | zero => exact .inl ⟨_, by rw [setReg_self]; rfl⟩
  | succ n ih =>
    simp only [regDec]
    split
    · exact .inr ⟨_, by rw [setReg_self]; rfl⟩
    · obtain ⟨v, hv⟩ | ⟨v, hv⟩ := ih (s.setReg r ((s.reg r).toNat - 1)) <;> rw [hv, setReg_setReg]
      · exact .inl ⟨v, rfl⟩
      · exact .inr ⟨v, rfl⟩

/-- Everything a push can do (R16, R131): it completes, or the write is refused with nothing changed, or the decrement is
refused with the byte written. -/
theorem pushByte_cases (v : Byte) (s : State) :
    (s.canWrite s.stackAddr = true ∧ s.sp ≠ 0x0000#16 ∧
      pushByte v s = .ok { s with sp := BitVec.ofNat 16 (s.sp.toNat - 1), mem := s.mem.write s.stackAddr v }) ∨
    (s.canWrite s.stackAddr = false ∧ pushByte v s = .error (.writeOutOfMemory s.stackAddr s)) ∨
    (s.canWrite s.stackAddr = true ∧ s.sp = 0x0000#16 ∧
      pushByte v s = .error (.registerUnderflow .sp { s with mem := s.mem.write s.stackAddr v })) := by
  unfold pushByte memWrite
  by_cases hw : s.canWrite s.stackAddr = true
  · by_cases hz : s.sp = 0x0000#16 <;> simp [hw, hz, bind, Except.bind, regDec_one]
  · simp [hw, bind, Except.bind, raise]

end Sys2Proof.Machine
end

