-- ==== Sys2Proof/Laws/Operands.lean ====
section
/-! SUPPORT. The resolver: everything it can do. It changes nothing, and where it raises, the state is the one it was given. -/

namespace Sys2Proof.Machine

/-- A pointer read completes exactly where both bytes can be read (R97, R98). -/
theorem readPointer_eq_ok {p a : Nat} {s : State} :
    readPointer p s = .ok a ↔ s.canRead p = true ∧ s.canRead (p + 1) = true ∧
      a = (wordOfBytes (s.byteAt p) (s.byteAt (p + 1))).toNat := by
  unfold readPointer memRead
  by_cases h : s.canRead p = true <;> by_cases h' : s.canRead (p + 1) = true <;>
    simp [h, h', bind, Except.bind, pure, Except.pure, eq_comm, raise]

/-- A pointer read raises only `ReadOutOfMemoryError`, with nothing changed. -/
theorem readPointer_error {p : Nat} {s : State} {f : Fault} (h : readPointer p s = .error f) :
    ∃ addr, f = .readOutOfMemory addr s := by
  unfold readPointer memRead at h
  by_cases h1 : s.canRead p = true <;> by_cases h2 : s.canRead (p + 1) = true <;>
    simp [h1, h2, bind, Except.bind, pure, Except.pure, raise] at h
  all_goals exact ⟨_, h.symm⟩

/-- The number a pair of bytes stands for: the low byte and 256 times the high byte (R43, R62). -/
theorem toNat_wordOfBytes (lo hi : Byte) : (wordOfBytes lo hi).toNat = lo.toNat + 0x100 * hi.toNat := by
  have := lo.isLt
  simp only [wordOfBytes, BitVec.toNat_append]
  rw [← Nat.shiftLeft_add_eq_or_of_lt this, Nat.shiftLeft_eq]
  omega

/-- Where the resolver raises in a memory mode, it is a refused pointer read, with nothing changed. -/
theorem effAddr_error {k : InstructionKind} {mode : AddressingModeKind} {op : Word} {s : State} {f : Fault}
    (hm : mode.hasAddr = true) (h : effAddr k mode op s = .error f) : ∃ addr, f = .readOutOfMemory addr s := by
  cases mode <;> simp only [AddressingModeKind.hasAddr, Bool.false_eq_true] at hm <;> simp only [effAddr, reduceCtorEq] at h
  · exact readPointer_error h
  · cases hp : readPointer op.toNat s with
    | error g =>
      simp only [hp, bind, Except.bind, Except.error.injEq] at h
      exact h ▸ readPointer_error hp
    | ok b => simp [hp, bind, Except.bind, pure, Except.pure] at h

/-- Where a source value is not to be had, a byte read was refused, with nothing changed. -/
theorem sourceValue_error {k : InstructionKind} {mode : AddressingModeKind} {op : Word} {s : State} {f : Fault}
    (hm : mode.hasAddr = true) (h : sourceValue k mode op s = .error f) : ∃ addr, f = .readOutOfMemory addr s := by
  have hs : sourceValue k mode op s = (do let ea ← effAddr k mode op s; memRead ea s) := by
    cases mode <;> first | rfl | simp [AddressingModeKind.hasAddr] at hm
  rw [hs] at h
  cases he : effAddr k mode op s with
  | error g =>
    simp only [he, bind, Except.bind, Except.error.injEq] at h
    exact h ▸ effAddr_error hm he
  | ok ea =>
    simp only [he, bind, Except.bind] at h
    exact ⟨ea, (memRead_eq_error.mp h).2⟩

/-- The source value of ASL in Accumulator mode is the 8-bit value of A, in every state (R103). -/
@[simp] theorem sourceValue_accumulator (op : Word) (s : State) : sourceValue .asl .accumulator op s = .ok (lowByte s.a) := rfl

/-- A source value in a memory mode is the byte at the effective address (R90). -/
theorem sourceValue_eq_ok {k : InstructionKind} {mode : AddressingModeKind} {op : Word} {s : State} {v : Byte}
    (hm : mode.hasAddr = true) :
    sourceValue k mode op s = .ok v ↔ ∃ ea, effAddr k mode op s = .ok ea ∧ s.canRead ea = true ∧ s.byteAt ea = v := by
  have hs : sourceValue k mode op s = (do let ea ← effAddr k mode op s; memRead ea s) := by
    cases mode <;> first | rfl | simp [AddressingModeKind.hasAddr] at hm
  rw [hs]
  cases he : effAddr k mode op s with
  | error g => simp [bind, Except.bind]
  | ok ea => simp [bind, Except.bind, memRead_eq_ok]

end Sys2Proof.Machine
end

