-- ==== Sys2Proof/Laws/Handlers.lean ====
section
/-! SUPPORT. From an instruction to its handler (`40_step_and_addressing.md` R84): the meaning of every instruction of a kind is the
one handler of that kind at the instruction's mode and raw operand; and the modes each kind comes in. -/

namespace Sys2Proof.Machine

variable {i : Instr} {s : State}

theorem exec_of_adc (h : i.kind = .adc) : exec i s = finish (adc i.mode i.operand s) := by
  cases i <;> first | rfl | cases h

theorem exec_of_bit (h : i.kind = .bit) : exec i s = finish (bit i.mode i.operand s) := by
  cases i <;> first | rfl | cases h

theorem exec_of_lda (h : i.kind = .lda) : exec i s = finish (lda i.mode i.operand s) := by
  cases i <;> first | rfl | cases h

theorem exec_of_sta (h : i.kind = .sta) : exec i s = finish (sta i.mode i.operand s) := by
  cases i <;> first | rfl | cases h

theorem exec_of_stx (h : i.kind = .stx) : exec i s = finish (stx i.mode i.operand s) := by
  cases i <;> first | rfl | cases h

theorem exec_of_asl_memory (h : i.kind = .asl) (hm : i.mode ≠ .accumulator) : exec i s = finish (aslMemory i.mode i.operand s) := by
  cases i <;> first | rfl | exact absurd rfl hm | cases h

theorem eq_aslAccumulator (h : i.kind = .asl) (hm : i.mode = .accumulator) : i = .aslAccumulator := by
  cases i <;> first | rfl | cases hm

/-- The kinds whose handler reads a source value take it from Immediate or from a memory mode (R85). -/
theorem mode_of_source_kind (h : i.kind = .adc ∨ i.kind = .lda ∨ i.kind = .bit) : i.mode = .immediate ∨ i.mode.hasAddr = true := by
  cases i <;> simp [Instr.kind, Instr.mode, AddressingModeKind.hasAddr] at h ⊢

/-- The kinds whose handler stores at an effective address take a memory mode (R85). -/
theorem mode_of_store_kind (h : i.kind = .sta ∨ i.kind = .stx ∨ i.kind = .asl ∧ i.mode ≠ .accumulator) : i.mode.hasAddr = true := by
  cases i <;> simp [Instr.kind, Instr.mode, AddressingModeKind.hasAddr] at h ⊢

/-- BIT is never Immediate (R85). -/
theorem mode_of_bit (h : i.kind = .bit) : i.mode.hasAddr = true := by
  cases i <;> simp [Instr.kind, Instr.mode, AddressingModeKind.hasAddr] at h ⊢

/-- No memory mode of ASL reads a pointer (R85). -/
theorem asl_addr_ok (h : i.kind = .asl) (hm : i.mode ≠ .accumulator) : ∃ ea, instrAddr i s = .ok ea := by
  cases i <;> first | exact ⟨_, rfl⟩ | exact absurd rfl hm | cases h

/-- The effective address of STX is its operand (R92, R94). -/
theorem stx_addr (h : i.kind = .stx) : instrAddr i s = .ok i.operand.toNat := by
  cases i <;> first | rfl | cases h

/-- Where a source value is not to be had, the state is the one it was asked in (R90). -/
theorem instrSource_error (h : i.kind = .adc ∨ i.kind = .lda ∨ i.kind = .bit) {f : Fault} (hf : instrSource i s = .error f) :
    i.mode ≠ .immediate ∧ ∃ addr, f = .readOutOfMemory addr s := by
  obtain hm | hm := mode_of_source_kind h
  · simp [instrSource, hm, sourceValue] at hf
  · exact ⟨fun e => by simp [e, AddressingModeKind.hasAddr] at hm, sourceValue_error hm hf⟩

end Sys2Proof.Machine
end

