-- ==== Sys2Proof/Laws/Exec.lean ====
section
/-! SUPPORT. What an instruction can do at all: one lemma, for completed and faulted instructions alike, from which the invariants
of the machine follow; and the result lemmas of the handlers. -/

namespace Sys2Proof.Machine

/-- What no instruction breaks: the cells, latches and bits it never writes, and the bounds it keeps. -/
structure Effect (s t : State) : Prop where
  y : t.y = s.y
  cfg : t.cfg = s.cfg
  ir : t.ir = s.ir
  operand : t.operand = s.operand
  sp : t.sp.toNat ≤ s.sp.toNat
  a : s.a.toNat ≤ 0xFF → t.a.toNat ≤ 0xFF
  x : s.x.toNat ≤ 0xFF → t.x.toNat ≤ 0xFF
  mem : s.mem.wf = true → t.mem.wf = true
  flags : ∀ k, k ∉ [0, 1, 6, 7] → t.p.getLsbD k = s.p.getLsbD k

theorem Effect.refl (s : State) : Effect s s :=
  ⟨rfl, rfl, rfl, rfl, Nat.le_refl _, id, id, id, fun _ _ => rfl⟩

theorem Effect.trans {s t u : State} (h : Effect s t) (g : Effect t u) : Effect s u :=
  ⟨g.y.trans h.y, g.cfg.trans h.cfg, g.ir.trans h.ir, g.operand.trans h.operand, Nat.le_trans g.sp h.sp, fun k => g.a (h.a k),
    fun k => g.x (h.x k), fun k => g.mem (h.mem k), fun k hk => (g.flags k hk).trans (h.flags k hk)⟩

/-- The four flags that instructions write stand at bits 0, 1, 6 and 7 (R20). -/
theorem Effect.setFlag (s : State) {f : Flag} (hf : f.bit ∈ [0, 1, 6, 7]) (b : Bool) : Effect s (s.setFlag f b) :=
  ⟨rfl, rfl, rfl, rfl, Nat.le_refl _, id, id, id, fun k hk => by
    rw [getLsbD_setFlag]; exact if_neg fun e => hk (by rw [e]; exact hf)⟩

theorem Effect.setA (s : State) {v : Nat} (hv : v ≤ 0xFF) : Effect s (s.setReg .a v) :=
  ⟨rfl, rfl, rfl, rfl, Nat.le_refl _, fun _ => by simp; omega, id, id, fun _ _ => rfl⟩

theorem Effect.setX (s : State) {v : Nat} (hv : v ≤ 0xFF) : Effect s (s.setReg .x v) :=
  ⟨rfl, rfl, rfl, rfl, Nat.le_refl _, id, fun _ => by simp; omega, id, fun _ _ => rfl⟩

theorem Effect.setPc (s : State) (v : Nat) : Effect s (s.setReg .pc v) :=
  ⟨rfl, rfl, rfl, rfl, Nat.le_refl _, id, id, id, fun _ _ => rfl⟩

theorem Effect.write {s : State} {addr : Nat} (h : s.canWrite addr = true) (v : Byte) :
    Effect s { s with mem := s.mem.write addr v } :=
  ⟨rfl, rfl, rfl, rfl, Nat.le_refl _, id, id, fun hw => wf_write hw (canWrite_le h) v, fun _ _ => rfl⟩

/-- A handler's result has the effect bound, completed or faulted. -/
def Bounded (s : State) (r : Except Fault State) : Prop :=
  (∀ t, r = .ok t → Effect s t) ∧ (∀ f, r = .error f → Effect s f.after)

theorem Bounded.ok {s t : State} (h : Effect s t) : Bounded s (.ok t) :=
  ⟨fun _ e => Except.ok.inj e ▸ h, fun _ e => by cases e⟩

theorem Bounded.error {s : State} {f : Fault} (h : Effect s f.after) : Bounded s (.error f) :=
  ⟨fun _ e => (by cases e), fun _ e => Except.error.inj e ▸ h⟩

theorem Bounded.trans {s t : State} {r : Except Fault State} (h : Effect s t) (g : Bounded t r) : Bounded s r :=
  ⟨fun u e => h.trans (g.1 u e), fun f e => h.trans (g.2 f e)⟩

theorem bounded_memWrite (s : State) (addr : Nat) (v : Byte) : Bounded s (memWrite addr v s) := by
  cases h : memWrite addr v s with
  | ok t => obtain ⟨hw, rfl⟩ := memWrite_eq_ok.mp h; exact .ok (.write hw v)
  | error f => obtain ⟨-, rfl⟩ := memWrite_eq_error.mp h; exact .error (.refl s)

theorem bounded_relativeJump (d : Int) (s : State) : Bounded s (relativeJump d s) := by
  unfold relativeJump
  split
  · obtain ⟨v, h⟩ | ⟨v, h⟩ := regInc_frame .pc d.toNat s <;> rw [h]
    · exact .ok (.setPc s v)
    · exact .error (.setPc s v)
  · obtain ⟨v, h⟩ | ⟨v, h⟩ := regDec_frame .pc (-d).toNat s <;> rw [h]
    · exact .ok (.setPc s v)
    · exact .error (.setPc s v)

theorem effect_push {s : State} (hw : s.canWrite s.stackAddr = true) (v : Byte) :
    Effect s { s with sp := BitVec.ofNat 16 (s.sp.toNat - 1), mem := s.mem.write s.stackAddr v } :=
  ⟨rfl, rfl, rfl, rfl, by
    have := s.sp.isLt
    show (BitVec.ofNat 16 (s.sp.toNat - 1)).toNat ≤ _
    rw [BitVec.toNat_ofNat, Nat.mod_eq_of_lt (by omega)]
    omega, id, id, fun h => wf_write h (canWrite_le hw) v, fun _ _ => rfl⟩

theorem bounded_pushByte (v : Byte) (s : State) : Bounded s (pushByte v s) := by
  obtain ⟨hw, -, h⟩ | ⟨-, h⟩ | ⟨hw, -, h⟩ := pushByte_cases v s <;> rw [h]
  · exact .ok (effect_push hw v)
  · exact .error (.refl s)
  · exact .error (.write hw v)

theorem bounded_jsr (op : Word) (s : State) : Bounded s (jsr op s) := by
  unfold jsr
  have h1 := bounded_pushByte (highByte s.pc) s
  cases e1 : pushByte (highByte s.pc) s with
  | error f => exact .error (h1.2 f e1)
  | ok t =>
    have h2 := bounded_pushByte (lowByte t.pc) t
    refine .trans (h1.1 t e1) ?_
    show Bounded t (do let u ← pushByte (lowByte t.pc) t; jumpAbsolute op u)
    cases e2 : pushByte (lowByte t.pc) t with
    | error f => exact .error (h2.2 f e2)
    | ok u => exact .trans (h2.1 u e2) (.ok (.setPc u _))

theorem effect_setZ (s : State) (v : Nat) : Effect s (s.setZ v) := .setFlag s (by decide) _
theorem effect_setN (s : State) (v : Nat) : Effect s (s.setN v) := .setFlag s (by decide) _
theorem effect_setCarith (s : State) (v : Nat) : Effect s (s.setCarith v) := .setFlag s (by decide) _

theorem effect_adcResult (m : Byte) (s : State) : Effect s (adcResult m s) := by
  unfold adcResult
  exact (((Effect.setFlag s (by decide) _).trans (effect_setCarith _ _)).trans (effect_setZ _ _)).trans
    ((effect_setN _ _).trans (.setA _ (by omega)))

theorem effect_bitResult (m : Byte) (s : State) : Effect s (bitResult m s) := by
  unfold bitResult
  exact ((Effect.setFlag s (by decide) _).trans (.setFlag _ (by decide) _)).trans (.setFlag _ (by decide) _)

theorem effect_aslFlags (raw : Nat) (s : State) : Effect s (aslFlags raw s) :=
  ((effect_setCarith s raw).trans (effect_setZ _ _)).trans (effect_setN _ _)

theorem effect_loadA (m : Byte) (s : State) : Effect s (loadResult .a m s) :=
  ((Effect.setA s (by have := m.isLt; omega)).trans (effect_setZ _ _)).trans (effect_setN _ _)

theorem effect_loadX (m : Byte) (s : State) : Effect s (loadResult .x m s) :=
  ((Effect.setX s (by have := m.isLt; omega)).trans (effect_setZ _ _)).trans (effect_setN _ _)

/-- ASL in a memory mode, once its address is known. -/
theorem bounded_aslMemory (mode : AddressingModeKind) (op : Word) (s : State) (hm : mode.hasAddr = true) :
    Bounded s (aslMemory mode op s) := by
  unfold aslMemory
  cases he : effAddr .asl mode op s with
  | error f => obtain ⟨_, rfl⟩ := effAddr_error hm he; exact .error (.refl s)
  | ok ea =>
    show Bounded s (do let v ← memRead ea s; memWrite ea (BitVec.ofNat 8 (v.toNat * 2)) (aslFlags (v.toNat * 2) s))
    cases hr : memRead ea s with
    | error f => obtain ⟨-, rfl⟩ := memRead_eq_error.mp hr; exact .error (.refl s)
    | ok v => exact .trans (effect_aslFlags _ s) (bounded_memWrite _ _ _)

theorem bounded_branchIf (f : Flag) (v : Bool) (op : Word) (s : State) : Bounded s (branchIf f v op s) := by
  unfold branchIf
  split
  · exact bounded_relativeJump _ s
  · exact .ok (.refl s)

/-- A handler that turns a source value into a result, once the results are bounded. -/
theorem bounded_source {k : InstructionKind} {mode : AddressingModeKind} {op : Word} {s : State} (g : Byte → State)
    (hm : mode = .immediate ∨ mode.hasAddr = true) (h : ∀ m, Effect s (g m)) :
    Bounded s (do let m ← sourceValue k mode op s; return g m) := by
  cases hs : sourceValue k mode op s with
  | ok m => exact .ok (h m)
  | error f =>
    obtain rfl | hm := hm
    · simp [sourceValue] at hs
    · obtain ⟨_, rfl⟩ := sourceValue_error hm hs; exact .error (.refl s)

/-- A handler that stores one byte at the effective address. -/
theorem bounded_store {k : InstructionKind} {mode : AddressingModeKind} {op : Word} {s : State} (v : Byte)
    (hm : mode.hasAddr = true) : Bounded s (do let ea ← effAddr k mode op s; memWrite ea v s) := by
  cases he : effAddr k mode op s with
  | ok ea => exact bounded_memWrite s ea v
  | error f => obtain ⟨_, rfl⟩ := effAddr_error hm he; exact .error (.refl s)

/-- Everything every instruction keeps, whether it completes or raises an error. -/
theorem exec_bounded (i : Instr) (s : State) : ∃ r, exec i s = finish r ∧ Bounded s r := by
  cases i
  case aslAccumulator => exact ⟨_, rfl, .ok ((effect_aslFlags _ s).trans (.setA _ (by omega)))⟩
  case jmpAbsolute op => exact ⟨_, rfl, .ok (.setPc s _)⟩
  case jmpRelative op => exact ⟨_, rfl, bounded_relativeJump _ s⟩
  case jsr op => exact ⟨_, rfl, bounded_jsr op s⟩
  case ldx op => exact ⟨ldx (op.setWidth 16) s, rfl, bounded_source _ (.inl rfl) fun m => effect_loadX m s⟩
  case clc => exact ⟨_, rfl, .ok (.setFlag s (by decide) _)⟩
  case sec => exact ⟨_, rfl, .ok (.setFlag s (by decide) _)⟩
  case nop => exact ⟨_, rfl, .ok (.refl s)⟩
  all_goals first
    | exact ⟨_, rfl, bounded_branchIf _ _ _ s⟩
    | exact ⟨_, exec_of_adc rfl, bounded_source _ (mode_of_source_kind (.inl rfl)) fun m => effect_adcResult m s⟩
    | exact ⟨_, exec_of_lda rfl, bounded_source _ (mode_of_source_kind (.inr (.inl rfl))) fun m => effect_loadA m s⟩
    | exact ⟨_, exec_of_bit rfl, bounded_source _ (mode_of_source_kind (.inr (.inr rfl))) fun m => effect_bitResult m s⟩
    | exact ⟨_, exec_of_sta rfl, bounded_store _ (mode_of_store_kind (.inl rfl))⟩
    | exact ⟨_, exec_of_stx rfl, bounded_store _ (mode_of_store_kind (.inr (.inl rfl)))⟩
    | exact ⟨_, exec_of_asl_memory rfl (by simp [Instr.mode]), bounded_aslMemory _ _ s rfl⟩

theorem exec_next_effect {i : Instr} {s t : State} (h : exec i s = .next t) : Effect s t := by
  obtain ⟨r, hr, hb⟩ := exec_bounded i s
  exact hb.1 t (finish_eq_next.mp (hr ▸ h))

theorem exec_fault_effect {i : Instr} {s : State} {f : Fault} (h : exec i s = .fault f) : Effect s f.after := by
  obtain ⟨r, hr, hb⟩ := exec_bounded i s
  exact hb.2 f (finish_eq_fault.mp (hr ▸ h))

end Sys2Proof.Machine
end

