-- ==== Sys2Proof/Laws/Fetch.lean ====
section
/-! SUPPORT. The fetch stage (`40_step_and_addressing.md` R80 to R83): everything it can do. -/

namespace Sys2Proof.Machine

/-- One operand byte is fetched exactly where it can be read and PC can pass it. -/
theorem fetchByte_of_ok {s : State} (hr : s.canRead s.pc.toNat = true) (hp : s.pc.toNat < 0xFFFF) :
    fetchByte s = .ok (s.byteAt s.pc.toNat, { s with pc := BitVec.ofNat 16 (s.pc.toNat + 1) }) := by
  have hne : s.pc ≠ 0xFFFF#16 := fun e => by rw [e] at hp; simp at hp
  simp [fetchByte, memRead, hr, bind, Except.bind, pure, Except.pure, regInc_one, hne]

/-- An operand byte that cannot be read stops the fetch there (R83, R155). -/
theorem fetchByte_of_refused {s : State} (hr : s.canRead s.pc.toNat = false) :
    fetchByte s = .error (.readOutOfMemory s.pc.toNat s) := by
  simp [fetchByte, memRead, hr, bind, Except.bind, raise]

/-- PC cannot pass a byte at 0xFFFF (R83, R157). -/
theorem fetchByte_of_top {s : State} (hr : s.canRead s.pc.toNat = true) (hp : s.pc = 0xFFFF#16) :
    fetchByte s = .error (.registerOverflow .pc s) := by
  rw [hp] at hr
  simp at hr
  simp [fetchByte, memRead, hr, hp, bind, Except.bind, regInc_one]

/-- What one operand fetch can do: it completes, or it stops with PC as it is. -/
theorem fetchByte_cases (s : State) :
    (s.canRead s.pc.toNat = true ∧ s.pc.toNat < 0xFFFF ∧
      fetchByte s = .ok (s.byteAt s.pc.toNat, { s with pc := BitVec.ofNat 16 (s.pc.toNat + 1) })) ∨
    (∃ f, fetchByte s = .error f ∧ f.after = s) := by
  by_cases hr : s.canRead s.pc.toNat = true
  · by_cases hp : s.pc = 0xFFFF#16
    · exact .inr ⟨_, fetchByte_of_top hr hp, rfl⟩
    · have : s.pc.toNat < 0xFFFF := by
        have := s.pc.isLt
        have : s.pc.toNat ≠ 0xFFFF := fun e => hp (BitVec.eq_of_toNat_eq (by simpa using e))
        omega
      exact .inl ⟨hr, this, fetchByte_of_ok hr this⟩
  · exact .inr ⟨_, fetchByte_of_refused (by simpa using hr), rfl⟩

/-- The operand fetch where it completes: it reads exactly the bytes the decoder takes and advances PC past them (R62, R83). -/
theorem fetchOperand_eq_ok {n : Nat} {s : State} (hn : n ≤ 2) (hr : s.canReadFrom s.pc.toNat n = true)
    (hp : s.pc.toNat + n ≤ 0xFFFF) :
    ∃ op, takeOperand n (s.bytesFrom s.pc.toNat n) = some (op, []) ∧
      fetchOperand n s = .ok (op, { s with pc := BitVec.ofNat 16 (s.pc.toNat + n) }) := by
  match n, hn with
  | 0, _ => exact ⟨_, rfl, by simp [fetchOperand]⟩
  | 1, _ =>
    simp only [State.canReadFrom, Bool.and_true] at hr
    exact ⟨_, rfl, by simp [fetchOperand, fetchByte_of_ok hr (by omega), bind, Except.bind, pure, Except.pure]⟩
  | 2, _ =>
    simp only [State.canReadFrom, Bool.and_true, Bool.and_eq_true] at hr
    have hpc : (BitVec.ofNat 16 (s.pc.toNat + 1)).toNat = s.pc.toNat + 1 := by
      rw [BitVec.toNat_ofNat, Nat.mod_eq_of_lt (by omega)]
    have h2 : fetchByte { s with pc := BitVec.ofNat 16 (s.pc.toNat + 1) } =
        .ok (s.byteAt (s.pc.toNat + 1), { s with pc := BitVec.ofNat 16 (s.pc.toNat + 1 + 1) }) := by
      rw [fetchByte_of_ok (by rw [hpc]; exact hr.2) (by show (BitVec.ofNat 16 _).toNat < _; omega)]
      simp only [hpc]
      rfl
    refine ⟨_, rfl, ?_⟩
    simp only [fetchOperand, fetchByte_of_ok hr.1 (show s.pc.toNat < 0xFFFF by omega), bind, Except.bind]
    simp only [h2, pure, Except.pure]

/-- What the operand fetch can do: it completes with PC past the operand bytes, or it stops with only PC changed. -/
theorem fetchOperand_cases (n : Nat) (s : State) (hn : n ≤ 2) :
    (∃ op, s.canReadFrom s.pc.toNat n = true ∧ s.pc.toNat + n ≤ 0xFFFF ∧
      takeOperand n (s.bytesFrom s.pc.toNat n) = some (op, []) ∧
      fetchOperand n s = .ok (op, { s with pc := BitVec.ofNat 16 (s.pc.toNat + n) })) ∨
    (∃ f w, fetchOperand n s = .error f ∧ f.after = { s with pc := w }) := by
  match n, hn with
  | 0, _ =>
    obtain ⟨op, h, h'⟩ := fetchOperand_eq_ok (n := 0) (s := s) (by omega) rfl (by have := s.pc.isLt; omega)
    exact .inl ⟨op, rfl, by have := s.pc.isLt; omega, h, h'⟩
  | 1, _ =>
    obtain ⟨hr, hp, _⟩ | ⟨f, h, ha⟩ := fetchByte_cases s
    · have hr' : s.canReadFrom s.pc.toNat 1 = true := by simpa [State.canReadFrom] using hr
      obtain ⟨op, h, h'⟩ := fetchOperand_eq_ok (by omega) hr' (by omega)
      exact .inl ⟨op, hr', by omega, h, h'⟩
    · exact .inr ⟨f, s.pc, by simp [fetchOperand, h, bind, Except.bind], by rw [ha]⟩
  | 2, _ =>
    obtain ⟨hr, hp, h1⟩ | ⟨f, h, ha⟩ := fetchByte_cases s
    · have hpc : (BitVec.ofNat 16 (s.pc.toNat + 1)).toNat = s.pc.toNat + 1 := by
        rw [BitVec.toNat_ofNat, Nat.mod_eq_of_lt (by omega)]
      obtain ⟨hr2, hp2, _⟩ | ⟨f, h2, ha⟩ := fetchByte_cases { s with pc := BitVec.ofNat 16 (s.pc.toNat + 1) }
      · simp only [hpc] at hr2 hp2
        have hr2 : s.canRead (s.pc.toNat + 1) = true := by rw [← hr2]; exact (canRead_congr (s := s) rfl _).symm
        have hr' : s.canReadFrom s.pc.toNat 2 = true := by simp [State.canReadFrom, hr, hr2]
        obtain ⟨op, h, h'⟩ := fetchOperand_eq_ok (by omega) hr' (by omega)
        exact .inl ⟨op, hr', by omega, h, h'⟩
      · exact .inr ⟨f, _, by simp [fetchOperand, h1, h2, bind, Except.bind], ha⟩
    · exact .inr ⟨f, s.pc, by simp [fetchOperand, h, bind, Except.bind], by rw [ha]⟩

/-- No instruction has more than two operand bytes (R61). -/
theorem operandLength_le (m : AddressingModeKind) : operandLength m ≤ 2 := by cases m <;> simp [operandLength]

/-- The state a handler starts in (R80): IR and OPERAND written, PC past the instruction. -/
def State.fetched (s : State) (n : Nat) (op : Word) : State :=
  { s with ir := s.byteAt s.pc.toNat, pc := BitVec.ofNat 16 (s.pc.toNat + 1 + n), operand := op }

/-- The fetch stage where it completes (R80 lines 1 to 9). -/
theorem fetch_eq_ok {s : State} {e : OperationCode} (hl : s.cfg.opTable.lookup (s.byteAt s.pc.toNat) = some e)
    (hr : s.canReadFrom s.pc.toNat (1 + operandLength e.mode) = true)
    (hp : s.pc.toNat + 1 + operandLength e.mode ≤ 0xFFFF) :
    ∃ op, takeOperand (operandLength e.mode) (s.bytesFrom (s.pc.toNat + 1) (operandLength e.mode)) = some (op, []) ∧
      fetch s = .ok (e, s.fetched (operandLength e.mode) op) := by
  rw [Nat.add_comm 1] at hr
  simp only [State.canReadFrom, Bool.and_eq_true] at hr
  have hne : s.pc ≠ 0xFFFF#16 := fun h => by rw [h] at hp; simp at hp; omega
  have hpc : (BitVec.ofNat 16 (s.pc.toNat + 1)).toNat = s.pc.toNat + 1 := by
    rw [BitVec.toNat_ofNat, Nat.mod_eq_of_lt (by omega)]
  let s1 : State := { s with ir := s.byteAt s.pc.toNat, pc := BitVec.ofNat 16 (s.pc.toNat + 1) }
  obtain ⟨op, h1, h2⟩ := fetchOperand_eq_ok (s := s1) (operandLength_le e.mode)
    ((canReadFrom_congr (s := s) (t := s1) rfl _ _).trans (hpc ▸ hr.2)) (by show (BitVec.ofNat 16 _).toNat + _ ≤ _; omega)
  refine ⟨op, by rw [bytesFrom_congr (s := s) (t := s1) rfl, hpc] at h1; exact h1, ?_⟩
  simp only [fetch, memRead, hr.1, if_true, bind, Except.bind, hl, regInc_one, reg_pc, hne, if_false, setReg_pc]
  simp only [s1] at h2
  simp only [h2, hpc, pure, Except.pure, State.fetched]

/-- Everything the fetch stage can do (R81 to R83, R161): nothing changed; or it completes; or it stops inside the instruction
with only IR and PC changed. -/
theorem fetch_cases (s : State) :
    (∃ f, fetch s = .error f ∧ f.after = s) ∨
    (∃ e, s.cfg.opTable.lookup (s.byteAt s.pc.toNat) = some e ∧
      s.canReadFrom s.pc.toNat (1 + operandLength e.mode) = true ∧ s.pc.toNat + 1 + operandLength e.mode ≤ 0xFFFF ∧
      ∃ op, takeOperand (operandLength e.mode) (s.bytesFrom (s.pc.toNat + 1) (operandLength e.mode)) = some (op, []) ∧
        fetch s = .ok (e, s.fetched (operandLength e.mode) op)) ∨
    (∃ f w, fetch s = .error f ∧ f.after = { s with ir := s.byteAt s.pc.toNat, pc := w }) := by
  by_cases hr : s.canRead s.pc.toNat = true
  · cases hl : s.cfg.opTable.lookup (s.byteAt s.pc.toNat) with
    | none => exact .inl ⟨.unknownOperation (s.byteAt s.pc.toNat) s, by simp [fetch, memRead, hr, bind, Except.bind, hl, raise], rfl⟩
    | some e =>
      by_cases hne : s.pc = 0xFFFF#16
      · refine .inr (.inr ⟨.registerOverflow .pc { s with ir := s.byteAt s.pc.toNat }, s.pc, ?_, rfl⟩)
        have htop : regInc .pc 1 { s with ir := s.byteAt s.pc.toNat } =
            .error (.registerOverflow .pc { s with ir := s.byteAt s.pc.toNat }) := by
          rw [regInc_one]
          exact if_pos hne
        simp only [fetch, memRead, hr, if_true, bind, Except.bind, hl, htop]
      · have hlt : s.pc.toNat < 0xFFFF := by
          have := s.pc.isLt
          have : s.pc.toNat ≠ 0xFFFF := fun h => hne (BitVec.eq_of_toNat_eq (by simpa using h))
          omega
        have hpc : (BitVec.ofNat 16 (s.pc.toNat + 1)).toNat = s.pc.toNat + 1 := by
          rw [BitVec.toNat_ofNat, Nat.mod_eq_of_lt (by omega)]
        obtain ⟨op, hr2, hp2, -, -⟩ | ⟨f, w, h, ha⟩ := fetchOperand_cases (operandLength e.mode)
          { s with ir := s.byteAt s.pc.toNat, pc := BitVec.ofNat 16 (s.pc.toNat + 1) } (operandLength_le e.mode)
        · simp only [hpc] at hr2 hp2
          have hr' : s.canReadFrom s.pc.toNat (1 + operandLength e.mode) = true := by
            rw [Nat.add_comm 1]
            simp only [State.canReadFrom, Bool.and_eq_true]
            refine ⟨hr, ?_⟩
            rw [← hr2]
            symm
            apply canReadFrom_congr
            rfl
          exact .inr (.inl ⟨e, rfl, hr', hp2, fetch_eq_ok hl hr' hp2⟩)
        · refine .inr (.inr ⟨f, w, ?_, ha⟩)
          simp only [fetch, memRead, hr, if_true, bind, Except.bind, hl, regInc_one, reg_pc, hne, if_false, setReg_pc, h]
  · exact .inl ⟨.readOutOfMemory s.pc.toNat s, by simp [fetch, memRead, hr, bind, Except.bind, raise], rfl⟩

end Sys2Proof.Machine
end

