-- ==== Sys2Proof/Laws/Step.lean ====
section
/-! SUPPORT. What a step can do (`40_step_and_addressing.md` R80): it stops in the fetch stage, it stops at an entry that selects no
instruction, or it runs the selected instruction in the fetched state. -/

namespace Sys2Proof.Machine

/-- The fetch stage and the checks before dispatch, where the fetch completes. -/
theorem fetchInstr_of_fetched {s : State} {e : OperationCode} (hl : s.cfg.opTable.lookup (s.byteAt s.pc.toNat) = some e)
    (hr : s.canReadFrom s.pc.toNat (1 + operandLength e.mode) = true)
    (hp : s.pc.toNat + 1 + operandLength e.mode ≤ 0xFFFF) {op : Word}
    (ho : takeOperand (operandLength e.mode) (s.bytesFrom (s.pc.toNat + 1) (operandLength e.mode)) = some (op, [])) :
    fetchInstr s = (match selectInstr e.kind e.mode op with
      | .ok i => .ok (i, s.fetched (operandLength e.mode) op)
      | .error err => .error (selectFault err (s.fetched (operandLength e.mode) op))) := by
  obtain ⟨op', ho', hf⟩ := fetch_eq_ok hl hr hp
  rw [ho] at ho'
  obtain rfl : op = op' := by simpa using ho'
  simp only [fetchInstr, hf, bind, Except.bind]
  show (match selectInstr e.kind e.mode op with | .ok i => _ | .error err => _) = _
  cases selectInstr e.kind e.mode op <;> rfl

/-- Everything a step can do: it faults with nothing changed; or in the fetch stage with only IR, PC and OPERAND changed; or it is
the meaning of an instruction in the fetched state. -/
theorem step_cases (s : State) :
    (∃ f, step s = .fault f ∧ f.after = s) ∨
    (∃ f b w op, step s = .fault f ∧ f.after = { s with ir := b, pc := w, operand := op }) ∨
    (∃ i n op, step s = exec i (s.fetched n op)) := by
  obtain ⟨f, hf, ha⟩ | ⟨e, hl, hr, hp, op, ho, -⟩ | ⟨f, w, hf, ha⟩ := fetch_cases s
  · exact .inl ⟨f, by simp only [step, fetchInstr, hf, bind, Except.bind], ha⟩
  · have hi := fetchInstr_of_fetched hl hr hp ho
    cases hs : selectInstr e.kind e.mode op with
    | ok i =>
      rw [hs] at hi
      exact .inr (.inr ⟨i, operandLength e.mode, op, by simp only [step, hi]⟩)
    | error err =>
      rw [hs] at hi
      refine .inr (.inl ⟨selectFault err (s.fetched (operandLength e.mode) op), s.byteAt s.pc.toNat,
        BitVec.ofNat 16 (s.pc.toNat + 1 + operandLength e.mode), op, by simp only [step, hi], ?_⟩)
      cases err <;> rfl
  · exact .inr (.inl ⟨f, _, w, s.operand, by simp only [step, fetchInstr, hf, bind, Except.bind], ha⟩)

/-- The fetched state, as far as the fetch changes it. -/
theorem fetched_eq (s : State) (n : Nat) (op : Word) :
    s.fetched n op = { s with ir := s.byteAt s.pc.toNat, pc := BitVec.ofNat 16 (s.pc.toNat + 1 + n), operand := op } := rfl

end Sys2Proof.Machine
end

