-- ==== Sys2Proof/Tests/Slice0.lean ====
section
/-! SUPPORT. Tests of the model. Every expected value is taken from the spec: the vectors of `95_test_vectors.md` by their names, or
the rule named. The words of the decode tests are written out from `30_encoding.md` R60, R62 and R64. After the tests stand the
witnesses: for every obligation that has hypotheses, a state and operands that meet them together. -/

namespace Sys2Proof.Tests

open Sys2Proof.Machine

/-- The start state of the vectors: an instruction at 8000, P = 00, SP = 00FD, STACK_BASE = 0100, the named cells of memory. -/
def at8000 (code : List Byte) (cells : List (Nat × Byte)) : State :=
  placeBytes 0x8000 code
    { State.reset with pc := 0x8000#16, p := 0x00#8, mem := cells.foldl (fun m c => m.write c.1 c.2) [] }

/-- `s` with one more table entry in front, for the vectors that need a platform table. -/
def withEntry (e : OperationCode) (s : State) : State := { s with cfg := { s.cfg with opTable := e :: s.cfg.opTable } }

/-- The state of a completed step. -/
def completed : Result → Option State
  | .next s => some s
  | _ => none

/-- The error of a faulted step. -/
def raised : Result → Option Fault
  | .fault f => some f
  | _ => none

/-! ### Well-formedness refuses what it must -/

theorem test_wf_default_table : defaultTable.wellFormed = true := by decide
theorem test_wf_table_refuses_two_entries_of_one_byte :
    OpTable.wellFormed [⟨0xA9#8, .lda, .immediate⟩, ⟨0xA9#8, .ldx, .immediate⟩] = false := by decide
theorem test_wf_table_refuses_slots_out_of_order :
    OpTable.wellFormed [⟨0xA9#8, .lda, .immediate⟩, ⟨0x18#8, .clc, .implied⟩] = false := by decide
theorem test_wf_instr_refuses_jmp_relative : (Instr.jmpRelative 0x05#8).wellFormed defaultTable = false := by decide
theorem test_wf_instr_accepts_lda : (Instr.ldaImmediate 0x05#8).wellFormed defaultTable = true := by decide
theorem test_wf_launch_accepts_default : defaultLaunch.wellFormed defaultConfig = true := by decide
theorem test_wf_launch_refuses_wide_a :
    LaunchParams.wellFormed defaultConfig { defaultLaunch with aReset := 0x0100#16 } = false := by decide
theorem test_wf_launch_refuses_wide_x :
    LaunchParams.wellFormed defaultConfig { defaultLaunch with xReset := 0x0100#16 } = false := by decide
theorem test_wf_launch_refuses_wide_y :
    LaunchParams.wellFormed defaultConfig { defaultLaunch with yReset := 0x0100#16 } = false := by decide
theorem test_wf_launch_refuses_stack_above_the_top :
    LaunchParams.wellFormed { defaultConfig with stackBase := 0xFF03#16 } defaultLaunch = false := by decide
theorem test_wf_launch_refuses_unsorted_memory :
    LaunchParams.wellFormed defaultConfig { defaultLaunch with memInit := [(5, 0x01#8), (4, 0x01#8)] } = false := by decide
theorem test_wf_launch_refuses_a_listed_default_byte :
    LaunchParams.wellFormed defaultConfig { defaultLaunch with memInit := [(5, 0x00#8)] } = false := by decide
theorem test_wf_launch_refuses_memory_above_the_top :
    LaunchParams.wellFormed defaultConfig { defaultLaunch with memInit := [(0x10000, 0x01#8)] } = false := by decide
theorem test_wf_launch_refuses_bad_table :
    LaunchParams.wellFormed { defaultConfig with opTable := [⟨1#8, .nop, .implied⟩, ⟨1#8, .clc, .implied⟩] } defaultLaunch = false := by
  decide

/-! ### Decoding: the words are written out bit by bit; operand bytes 34 and 12 -/

theorem test_decode_adc :
    decode defaultTable [0b01101001#8, 0b00110100#8] = .ok (.adcImmediate 0x34#8, []) ∧
    decode defaultTable [0b01100101#8, 0b00110100#8] = .ok (.adcZeroPage 0x34#8, []) ∧
    decode defaultTable [0b01110101#8, 0b00110100#8] = .ok (.adcZeroPageX 0x34#8, []) ∧
    decode defaultTable [0b01101101#8, 0b00110100#8, 0b00010010#8] = .ok (.adcAbsolute 0x1234#16, []) ∧
    decode defaultTable [0b01111101#8, 0b00110100#8, 0b00010010#8] = .ok (.adcAbsoluteX 0x1234#16, []) ∧
    decode defaultTable [0b01111001#8, 0b00110100#8, 0b00010010#8] = .ok (.adcAbsoluteY 0x1234#16, []) ∧
    decode defaultTable [0b01100001#8, 0b00110100#8] = .ok (.adcIndirectX 0x34#8, []) ∧
    decode defaultTable [0b01110001#8, 0b00110100#8] = .ok (.adcIndirectY 0x34#8, []) := by decide
theorem test_decode_asl :
    decode defaultTable [0b00001010#8] = .ok (.aslAccumulator, []) ∧
    decode defaultTable [0b00000110#8, 0b00110100#8] = .ok (.aslZeroPage 0x34#8, []) ∧
    decode defaultTable [0b00010110#8, 0b00110100#8] = .ok (.aslZeroPageX 0x34#8, []) ∧
    decode defaultTable [0b00001110#8, 0b00110100#8, 0b00010010#8] = .ok (.aslAbsolute 0x1234#16, []) ∧
    decode defaultTable [0b00011110#8, 0b00110100#8, 0b00010010#8] = .ok (.aslAbsoluteX 0x1234#16, []) := by decide
theorem test_decode_bcc :
    decode defaultTable [0b10010000#8, 0b00110100#8] = .ok (.bcc 0x34#8, []) := by decide
theorem test_decode_bcs :
    decode defaultTable [0b10110000#8, 0b00110100#8] = .ok (.bcs 0x34#8, []) := by decide
theorem test_decode_beq :
    decode defaultTable [0b11110000#8, 0b00110100#8] = .ok (.beq 0x34#8, []) := by decide
theorem test_decode_bit :
    decode defaultTable [0b00100100#8, 0b00110100#8] = .ok (.bitZeroPage 0x34#8, []) ∧
    decode defaultTable [0b00101100#8, 0b00110100#8, 0b00010010#8] = .ok (.bitAbsolute 0x1234#16, []) := by decide
theorem test_decode_bne :
    decode defaultTable [0b11010000#8, 0b00110100#8] = .ok (.bne 0x34#8, []) := by decide
theorem test_decode_clc :
    decode defaultTable [0b00011000#8] = .ok (.clc, []) := by decide
theorem test_decode_jmp :
    decode defaultTable [0b01001100#8, 0b00110100#8, 0b00010010#8] = .ok (.jmpAbsolute 0x1234#16, []) := by decide
theorem test_decode_jsr :
    decode defaultTable [0b00100000#8, 0b00110100#8, 0b00010010#8] = .ok (.jsr 0x1234#16, []) := by decide
theorem test_decode_lda :
    decode defaultTable [0b10101001#8, 0b00110100#8] = .ok (.ldaImmediate 0x34#8, []) ∧
    decode defaultTable [0b10100101#8, 0b00110100#8] = .ok (.ldaZeroPage 0x34#8, []) ∧
    decode defaultTable [0b10110101#8, 0b00110100#8] = .ok (.ldaZeroPageX 0x34#8, []) ∧
    decode defaultTable [0b10101101#8, 0b00110100#8, 0b00010010#8] = .ok (.ldaAbsolute 0x1234#16, []) ∧
    decode defaultTable [0b10111101#8, 0b00110100#8, 0b00010010#8] = .ok (.ldaAbsoluteX 0x1234#16, []) ∧
    decode defaultTable [0b10111001#8, 0b00110100#8, 0b00010010#8] = .ok (.ldaAbsoluteY 0x1234#16, []) ∧
    decode defaultTable [0b10100001#8, 0b00110100#8] = .ok (.ldaIndirectX 0x34#8, []) ∧
    decode defaultTable [0b10110001#8, 0b00110100#8] = .ok (.ldaIndirectY 0x34#8, []) := by decide
theorem test_decode_ldx :
    decode defaultTable [0b10100010#8, 0b00110100#8] = .ok (.ldx 0x34#8, []) := by decide
theorem test_decode_nop :
    decode defaultTable [0b11101010#8] = .ok (.nop, []) := by decide
theorem test_decode_sec :
    decode defaultTable [0b00111000#8] = .ok (.sec, []) := by decide
theorem test_decode_sta :
    decode defaultTable [0b10000101#8, 0b00110100#8] = .ok (.staZeroPage 0x34#8, []) ∧
    decode defaultTable [0b10010101#8, 0b00110100#8] = .ok (.staZeroPageX 0x34#8, []) ∧
    decode defaultTable [0b10001101#8, 0b00110100#8, 0b00010010#8] = .ok (.staAbsolute 0x1234#16, []) ∧
    decode defaultTable [0b10011101#8, 0b00110100#8, 0b00010010#8] = .ok (.staAbsoluteX 0x1234#16, []) ∧
    decode defaultTable [0b10011001#8, 0b00110100#8, 0b00010010#8] = .ok (.staAbsoluteY 0x1234#16, []) ∧
    decode defaultTable [0b10000001#8, 0b00110100#8] = .ok (.staIndirectX 0x34#8, []) ∧
    decode defaultTable [0b10010001#8, 0b00110100#8] = .ok (.staIndirectY 0x34#8, []) := by decide
theorem test_decode_stx :
    decode defaultTable [0b10000110#8, 0b00110100#8] = .ok (.stxZeroPage 0x34#8, []) ∧
    decode defaultTable [0b10001110#8, 0b00110100#8, 0b00010010#8] = .ok (.stxAbsolute 0x1234#16, []) := by decide
/-- (JMP, Relative) has no byte in the default table (C7); the platform table of vector J3 gives it byte 80. -/
theorem test_decode_jmp_relative :
    decode (⟨0x80#8, .jmp, .relative⟩ :: defaultTable) [0b10000000#8, 0b00000101#8] = .ok (.jmpRelative 0x05#8, []) := by decide
theorem test_decode_rejects_by_name :
    decode defaultTable [] = .error .noBytes ∧
    decode defaultTable [0x02#8] = .error (.unknownOperation 0x02#8) ∧
    decode defaultTable [0x89#8, 0x40#8] = .error (.unknownOperation 0x89#8) ∧
    decode defaultTable [0xA5#8] = .error .missingOperand ∧
    decode defaultTable [0x4C#8, 0x07#8] = .error .missingOperand ∧
    decode [⟨0xA6#8, .ldx, .zeroPage⟩] [0xA6#8, 0x10#8] = .error (.notSelected (.unsupportedAddressingMode .ldx .zeroPage)) ∧
    decode [⟨0xA0#8, .other "LDY", .relative⟩] [0xA0#8, 0x01#8] = .error (.notSelected (.unimplementedInstruction "LDY")) := by
  decide
theorem test_decode_table_word_counts_from_the_first_byte :
    decodeTableWord 24 0x12344C = some (.jmpAbsolute 0x1234#16) ∧ decodeTableWord 8 0x12344C = some (.jmpAbsolute 0x0000#16) := by
  decide

/-! ### The resolver's Accumulator row (R103) -/

/-- For ASL the source value is A (H3); another kind has none ((ADC, Accumulator) is an example of R85). -/
theorem test_source_value_accumulator :
    let s := { at8000 [0x0A#8] [] with a := 0x00FF#16 }
    instrSource .aslAccumulator s = .ok 0xFF#8 ∧
    sourceValue .adc .accumulator 0x0000#16 s = .error (.unsupportedAddressingMode .adc .accumulator s) := ⟨rfl, rfl⟩

/-! ### One step of each instruction -/

/-- D2. -/
theorem test_adc_immediate_overflow :
    (completed (step { at8000 [0x69#8, 0x01#8] [] with a := 0x007F#16 })).map (fun s => (s.a, s.p, s.pc))
      = some (0x0080#16, 0xC0#8, 0x8002#16) := by decide
/-- D8. -/
theorem test_adc_immediate_largest_sum :
    (completed (step { at8000 [0x69#8, 0xFF#8] [] with a := 0x00FF#16, p := 0x01#8 })).map (fun s => (s.a, s.p))
      = some (0x00FF#16, 0x81#8) := by decide
/-- The memory-mode vector of 2.3. -/
theorem test_adc_zero_page :
    (completed (step { at8000 [0x65#8, 0x22#8] [(0x0022, 0x01#8)] with a := 0x00FF#16 })).map (fun s => (s.a, s.p))
      = some (0x0000#16, 0x03#8) := by decide
/-- The address of A3, the sum of D1. -/
theorem test_adc_zero_page_x :
    (completed (step { at8000 [0x75#8, 0xF0#8] [(0x0010, 0x01#8), (0x0110, 0x10#8)] with a := 0x0050#16, x := 0x0020#16 })).map (fun s => (s.a, s.p))
      = some (0x0060#16, 0x00#8) := by decide
/-- The address of A4, the sum of D3. -/
theorem test_adc_absolute :
    (completed (step { at8000 [0x6D#8, 0x34#8, 0x12#8] [(0x1234, 0x01#8)] with a := 0x00FF#16 })).map (fun s => (s.a, s.p, s.pc))
      = some (0x0000#16, 0x03#8, 0x8003#16) := by decide
/-- The address of A5, the sum of D5. -/
theorem test_adc_absolute_x :
    (completed (step { at8000 [0x7D#8, 0xF0#8, 0x20#8] [(0x2110, 0x50#8)] with a := 0x0050#16, x := 0x0020#16 })).map (fun s => (s.a, s.p))
      = some (0x00A0#16, 0xC0#8) := by decide
/-- The address of A10, the sum of D6. -/
theorem test_adc_absolute_y :
    (completed (step { at8000 [0x79#8, 0x00#8, 0x20#8] [(0x20FF, 0x90#8)] with a := 0x00D0#16, y := 0x00FF#16 })).map (fun s => (s.a, s.p))
      = some (0x0060#16, 0x41#8) := by decide
/-- The address of A6, the sum of D10; P.D = 1 changes nothing (D21). -/
theorem test_adc_indirect_x :
    (completed (step { at8000 [0x61#8, 0xF0#8] [(0x0011, 0x20#8), (0x2000, 0xFF#8)] with a := 0x0080#16, x := 0x0020#16, p := 0x08#8 })).map (fun s => (s.a, s.p))
      = some (0x007F#16, 0x49#8) := by decide
/-- The memory-mode vector of 2.3. -/
theorem test_adc_indirect_y :
    (completed (step { at8000 [0x71#8, 0x10#8] [(0x0011, 0x20#8), (0x2005, 0x10#8)] with a := 0x0050#16, y := 0x0005#16 })).map (fun s => (s.a, s.p))
      = some (0x0060#16, 0x00#8) := by decide
/-- T1. -/
theorem test_bit_zero_page_sets :
    (completed (step { at8000 [0x24#8, 0x40#8] [(0x0040, 0xC0#8)] with a := 0x000F#16, p := 0x01#8 })).map (fun s => (s.p, s.a))
      = some (0xC3#8, 0x000F#16) := by decide
/-- T6. -/
theorem test_bit_zero_page_clears :
    (completed (step { at8000 [0x24#8, 0x40#8] [(0x0040, 0x01#8)] with a := 0x0001#16, p := 0xC3#8 })).map (fun s => s.p)
      = some 0x01#8 := by decide
/-- The Absolute vector of 2.4. -/
theorem test_bit_absolute :
    (completed (step { at8000 [0x2C#8, 0x05#8, 0x20#8] [(0x2005, 0xC0#8)] with a := 0x000F#16, p := 0x01#8 })).map (fun s => (s.p, s.pc))
      = some (0xC3#8, 0x8003#16) := by decide
/-- H1. -/
theorem test_asl_accumulator_carry_zero :
    (completed (step { at8000 [0x0A#8] [] with a := 0x0080#16, p := 0x40#8 })).map (fun s => (s.a, s.p, s.pc))
      = some (0x0000#16, 0x43#8, 0x8001#16) := by decide
/-- H3. -/
theorem test_asl_accumulator_carry_negative :
    (completed (step { at8000 [0x0A#8] [] with a := 0x00FF#16, p := 0x40#8 })).map (fun s => (s.a, s.p))
      = some (0x00FE#16, 0xC1#8) := by decide
/-- H2 in memory (R112). -/
theorem test_asl_zero_page :
    (completed (step { at8000 [0x06#8, 0x10#8] [(0x0010, 0x40#8)] with p := 0x40#8 })).map (fun s => (s.byteAt 0x0010, s.p))
      = some (0x80#8, 0xC0#8) := by decide
/-- The memory vector of 2.5. -/
theorem test_asl_zero_page_x :
    (completed (step { at8000 [0x16#8, 0x10#8] [(0x0015, 0x81#8)] with x := 0x0005#16, a := 0x0007#16 })).map (fun s => (s.byteAt 0x0015, s.p, s.a, s.pc))
      = some (0x02#8, 0x01#8, 0x0007#16, 0x8002#16) := by decide
/-- H6 in memory (R112); the carry in is not shifted in. -/
theorem test_asl_absolute :
    (completed (step { at8000 [0x0E#8, 0x00#8, 0x20#8] [(0x2000, 0xC0#8)] with p := 0x41#8 })).map (fun s => (s.byteAt 0x2000, s.p))
      = some (0x80#8, 0xC1#8) := by decide
/-- The memory vector of 2.5. -/
theorem test_asl_absolute_x :
    (completed (step { at8000 [0x1E#8, 0x00#8, 0x20#8] [(0x2005, 0xC0#8)] with x := 0x0005#16 })).map (fun s => (s.byteAt 0x2005, s.p, s.pc))
      = some (0x80#8, 0x81#8, 0x8003#16) := by decide
/-- L3. -/
theorem test_lda_immediate_keeps_c_and_v :
    (completed (step { at8000 [0xA9#8, 0x7F#8] [] with p := 0xC3#8 })).map (fun s => (s.a, s.p))
      = some (0x007F#16, 0x41#8) := by decide
/-- A2. -/
theorem test_lda_zero_page :
    (completed (step (at8000 [0xA5#8, 0x10#8] [(0x0010, 0x80#8)]))).map (fun s => (s.a, s.p, s.pc))
      = some (0x0080#16, 0x80#8, 0x8002#16) := by decide
/-- A3. -/
theorem test_lda_zero_page_x_leaves_the_page :
    (completed (step { at8000 [0xB5#8, 0xF0#8] [(0x0110, 0x77#8), (0x0010, 0x55#8)] with x := 0x0020#16 })).map (fun s => s.a)
      = some 0x0077#16 := by decide
/-- A4. -/
theorem test_lda_absolute_low_byte_first :
    (completed (step (at8000 [0xAD#8, 0x34#8, 0x12#8] [(0x1234, 0x01#8)]))).map (fun s => (s.a, s.pc))
      = some (0x0001#16, 0x8003#16) := by decide
/-- A5. -/
theorem test_lda_absolute_x :
    (completed (step { at8000 [0xBD#8, 0xF0#8, 0x20#8] [(0x2110, 0x22#8)] with x := 0x0020#16 })).map (fun s => s.a)
      = some 0x0022#16 := by decide
/-- A10. -/
theorem test_lda_absolute_y :
    (completed (step { at8000 [0xB9#8, 0x00#8, 0x20#8] [(0x20FF, 0x11#8)] with y := 0x00FF#16 })).map (fun s => s.a)
      = some 0x0011#16 := by decide
/-- A7. -/
theorem test_lda_indirect_x_high_byte_unwrapped :
    (completed (step (at8000 [0xA1#8, 0xFF#8] [(0x00FF, 0x34#8), (0x0100, 0x12#8), (0x0000, 0x56#8), (0x1234, 0xAB#8), (0x5634, 0xCD#8)]))).map (fun s => s.a)
      = some 0x00AB#16 := by decide
/-- A17. -/
theorem test_lda_indirect_x_pointer_wraps :
    (completed (step { at8000 [0xA1#8, 0x01#8] [(0x0000, 0x78#8), (0x0001, 0x56#8), (0x5678, 0x3C#8)] with x := 0x00FF#16 })).map (fun s => s.a)
      = some 0x003C#16 := by decide
/-- A9. -/
theorem test_lda_indirect_y :
    (completed (step { at8000 [0xB1#8, 0xFF#8] [(0x0100, 0x30#8), (0x0000, 0x40#8), (0x3001, 0xEE#8), (0x4001, 0xDD#8)] with y := 0x0001#16 })).map (fun s => s.a)
      = some 0x00EE#16 := by decide
/-- L5. -/
theorem test_ldx_zero :
    (completed (step { at8000 [0xA2#8, 0x00#8] [] with p := 0x80#8 })).map (fun s => (s.x, s.p))
      = some (0x0000#16, 0x02#8) := by decide
/-- L6. -/
theorem test_ldx_negative :
    (completed (step { at8000 [0xA2#8, 0xFF#8] [] with p := 0x02#8, a := 0x0007#16 })).map (fun s => (s.x, s.p, s.a))
      = some (0x00FF#16, 0x80#8, 0x0007#16) := by decide
/-- L7. -/
theorem test_sta_zero_page :
    (completed (step { at8000 [0x85#8, 0x10#8] [] with a := 0x0060#16, p := 0xC3#8 })).map (fun s => (s.byteAt 0x0010, s.p, s.a))
      = some (0x60#8, 0xC3#8, 0x0060#16) := by decide
/-- L13. -/
theorem test_sta_zero_page_x :
    (completed (step { at8000 [0x95#8, 0xF0#8] [] with a := 0x005A#16, x := 0x0020#16 })).map (fun s => (s.byteAt 0x0110, s.byteAt 0x0010))
      = some (0x5A#8, 0x00#8) := by decide
/-- L8. -/
theorem test_sta_absolute_zero :
    (completed (step { at8000 [0x8D#8, 0x00#8, 0x20#8] [(0x2000, 0x55#8)] with a := 0x0000#16 })).map (fun s => (s.byteAt 0x2000, s.p))
      = some (0x00#8, 0x00#8) := by decide
/-- L9. -/
theorem test_sta_absolute_x :
    (completed (step { at8000 [0x9D#8, 0x00#8, 0x20#8] [] with a := 0x00C0#16, x := 0x0005#16 })).map (fun s => s.byteAt 0x2005)
      = some 0xC0#8 := by decide
/-- L10. -/
theorem test_sta_absolute_y :
    (completed (step { at8000 [0x99#8, 0x00#8, 0x20#8] [] with a := 0x0011#16, y := 0x00FF#16 })).map (fun s => s.byteAt 0x20FF)
      = some 0x11#8 := by decide
/-- L12. -/
theorem test_sta_indirect_x :
    (completed (step { at8000 [0x81#8, 0xF0#8] [(0x0011, 0x20#8)] with a := 0x005A#16, x := 0x0020#16 })).map (fun s => s.byteAt 0x2000)
      = some 0x5A#8 := by decide
/-- L11. -/
theorem test_sta_indirect_y :
    (completed (step { at8000 [0x91#8, 0x10#8] [(0x0011, 0x20#8)] with a := 0x005A#16, y := 0x0005#16 })).map (fun s => s.byteAt 0x2005)
      = some 0x5A#8 := by decide
/-- L14. -/
theorem test_stx_zero_page :
    (completed (step { at8000 [0x86#8, 0x12#8] [] with x := 0x0005#16, p := 0x83#8 })).map (fun s => (s.byteAt 0x0012, s.p))
      = some (0x05#8, 0x83#8) := by decide
/-- L15. -/
theorem test_stx_absolute :
    (completed (step { at8000 [0x8E#8, 0x34#8, 0x12#8] [] with x := 0x00FF#16 })).map (fun s => s.byteAt 0x1234)
      = some 0xFF#8 := by decide
/-- J1. -/
theorem test_jmp_absolute :
    (completed (step (at8000 [0x4C#8, 0x07#8, 0x80#8] []))).map (fun s => s.pc)
      = some 0x8007#16 := by decide
/-- J3. -/
theorem test_jmp_relative :
    (completed (step (withEntry ⟨0x80#8, .jmp, .relative⟩ (at8000 [0x80#8, 0x05#8] [])))).map (fun s => s.pc)
      = some 0x8007#16 := by decide
/-- J5: the JSR lies at 1231. -/
theorem test_jsr_pushes_high_then_low :
    (completed (step (placeBytes 0x1231 [0x20#8, 0x08#8, 0x80#8] { at8000 [] [] with pc := 0x1231#16 }))).map
      (fun s => (s.byteAt 0x01FD, s.byteAt 0x01FC, s.sp, s.pc)) = some (0x12#8, 0x34#8, 0x00FB#16, 0x8008#16) := by decide
/-- A15. -/
theorem test_bcs_backward_128 :
    (completed (step { at8000 [0xB0#8, 0x80#8] [] with p := 0x01#8 })).map (fun s => s.pc)
      = some 0x7F82#16 := by decide
/-- B2. -/
theorem test_bcs_not_taken :
    (completed (step (at8000 [0xB0#8, 0x05#8] []))).map (fun s => s.pc)
      = some 0x8002#16 := by decide
/-- B3. -/
theorem test_bcc_taken :
    (completed (step (at8000 [0x90#8, 0x05#8] []))).map (fun s => s.pc)
      = some 0x8007#16 := by decide
/-- B4. -/
theorem test_bcc_not_taken :
    (completed (step { at8000 [0x90#8, 0x05#8] [] with p := 0x01#8 })).map (fun s => s.pc)
      = some 0x8002#16 := by decide
/-- B5. -/
theorem test_beq_taken :
    (completed (step { at8000 [0xF0#8, 0x05#8] [] with p := 0x02#8 })).map (fun s => s.pc)
      = some 0x8007#16 := by decide
/-- B11. -/
theorem test_bne_backward :
    (completed (step (at8000 [0xD0#8, 0xFB#8] []))).map (fun s => s.pc)
      = some 0x7FFD#16 := by decide
/-- K1. -/
theorem test_clc :
    (completed (step { at8000 [0x18#8] [] with p := 0xC3#8 })).map (fun s => (s.p, s.pc))
      = some (0xC2#8, 0x8001#16) := by decide
/-- K3. -/
theorem test_sec :
    (completed (step (at8000 [0x38#8] []))).map (fun s => (s.p, s.pc))
      = some (0x01#8, 0x8001#16) := by decide
/-- K5. -/
theorem test_nop :
    (completed (step { at8000 [0xEA#8] [] with p := 0xC3#8 })).map (fun s => (s.p, s.pc))
      = some (0xC3#8, 0x8001#16) := by decide

/-! ### Errors and their order -/

/-- X1: an unpopulated byte, nothing changed. -/
theorem test_unknown_operation :
    raised (step (at8000 [0x02#8] [])) = some (.unknownOperation 0x02#8 (at8000 [0x02#8] [])) := by decide
/-- X3: NOP at FFFF; IR is set and the NOP did not complete. -/
theorem test_nop_at_the_top :
    let s := placeBytes 0xFFFF [0xEA#8] { at8000 [] [] with pc := 0xFFFF#16 }
    raised (step s) = some (.registerOverflow .pc { s with ir := 0xEA#8 }) := by decide
/-- X4: JMP at FFFD; all three bytes were read, the jump was not made. -/
theorem test_jmp_at_the_top :
    let s := placeBytes 0xFFFD [0x4C#8, 0x00#8, 0x80#8] { at8000 [] [] with pc := 0xFFFD#16 }
    raised (step s) = some (.registerOverflow .pc { s with ir := 0x4C#8, pc := 0xFFFF#16 }) := by decide
/-- A11: the sum is not wrapped. -/
theorem test_lda_absolute_x_above_the_top :
    let s := { at8000 [0xBD#8, 0xF0#8, 0xFF#8] [] with x := 0x0020#16 }
    raised (step s) = some (.readOutOfMemory 0x10010 { s with ir := 0xBD#8, operand := 0xFFF0#16, pc := 0x8003#16 }) := by decide
/-- A12: the two pointer reads come first. -/
theorem test_lda_indirect_y_above_the_top :
    (raised (step { at8000 [0xB1#8, 0x10#8] [(0x0010, 0xFF#8), (0x0011, 0xFF#8)] with y := 0x0001#16 })).map
      (fun f => match f with | .readOutOfMemory addr s => some (addr, s.pc) | _ => none)
      = some (some (0x10000, 0x8002#16)) := by decide
/-- A13: no byte is written. -/
theorem test_sta_absolute_x_above_the_top :
    let s := { at8000 [0x9D#8, 0xF0#8, 0xFF#8] [] with x := 0x0020#16, a := 0x0007#16 }
    raised (step s) = some (.writeOutOfMemory 0x10010 { s with ir := 0x9D#8, operand := 0xFFF0#16, pc := 0x8003#16 }) := by decide
/-- X9: the flags have been written before the refused store. -/
theorem test_asl_refused_write_back :
    let s := at8000 [0x06#8, 0x10#8] [(0x0010, 0x81#8)]
    let s := { s with cfg := { s.cfg with unwritable := [⟨0x0010, 0x0010⟩] } }
    raised (step s) = some (.writeOutOfMemory 0x0010 { s with ir := 0x06#8, operand := 0x0010#16, pc := 0x8002#16, p := 0x01#8 }) := by
  decide
/-- X10: a pair outside R85. -/
theorem test_unsupported_pair :
    let s := withEntry ⟨0xA6#8, .ldx, .zeroPage⟩ (at8000 [0xA6#8, 0x10#8] [])
    raised (step s) = some (.unsupportedAddressingMode .ldx .zeroPage
      { s with ir := 0xA6#8, operand := 0x0010#16, pc := 0x8002#16 }) := by decide
/-- X12: a kind without a handler comes before the mode. -/
theorem test_unimplemented_comes_first :
    let s := withEntry ⟨0xA0#8, .other "LDY", .relative⟩ (at8000 [0xA0#8, 0x01#8] [])
    raised (step s) = some (.unimplementedInstruction "LDY" { s with ir := 0xA0#8, operand := 0x0001#16, pc := 0x8002#16 }) := by decide
/-- B12: PC saturates at 0. -/
theorem test_bne_below_zero :
    let s := placeBytes 0x0010 [0xD0#8, 0x80#8] { at8000 [] [] with pc := 0x0010#16 }
    raised (step s) = some (.registerUnderflow .pc { s with ir := 0xD0#8, operand := 0x0080#16, pc := 0x0000#16 }) := by decide
/-- B13: PC saturates at FFFF. -/
theorem test_beq_above_the_top :
    let s := placeBytes 0xFFF0 [0xF0#8, 0x7F#8] { at8000 [] [] with pc := 0xFFF0#16, p := 0x02#8 }
    raised (step s) = some (.registerOverflow .pc { s with ir := 0xF0#8, operand := 0x007F#16, pc := 0xFFFF#16 }) := by decide
/-- J6: the second decrement fails; both bytes are pushed and the jump is not made. -/
theorem test_jsr_exhausted_stack :
    let s := { at8000 [0x20#8, 0x00#8, 0x90#8] [] with sp := 0x0001#16 }
    let m := (s.mem.write 0x0101 0x80#8).write 0x0100 0x03#8
    raised (step s) = some (.registerUnderflow .sp
      { s with ir := 0x20#8, operand := 0x9000#16, pc := 0x8003#16, sp := 0x0000#16, mem := m }) := by decide

/-! ### The Register cell, the scheduler and the table build -/

/-- G2, G5: the steps before the refused one stay. -/
theorem test_register_cell_saturates :
    regInc .pc 3 { State.reset with pc := 0xFFFD#16 } = .error (.registerOverflow .pc { State.reset with pc := 0xFFFF#16 }) ∧
    regDec .sp 2 { State.reset with sp := 0x0001#16 } = .error (.registerUnderflow .sp { State.reset with sp := 0x0000#16 }) := by
  decide
/-- S2: set is masked to 16 bits. -/
theorem test_register_set_is_masked : (State.reset.setReg .x 0x12345).x = 0x2345#16 := by decide
/-- G7, G10, G12: the flag setters take the masked byte, bit 7, and the comparison with FF. -/
theorem test_flag_setters :
    ((State.reset.setZ 0x100).flag .z, (State.reset.setN 0x100).flag .n, (State.reset.setN 0x180).flag .n,
      (State.reset.setCarith 0xFF).flag .c, (State.reset.setCarith 0x1FF).flag .c) = (true, false, true, false, true) := by decide
/-- R195 (b): the scheduler stops at HALT_PC and does not fetch there. -/
theorem test_scheduler_stops_at_halt_pc :
    let s := at8000 [0xEA#8, 0x02#8] []
    let s := { s with cfg := { s.cfg with haltPc := some 0x8001#16 } }
    runSteps 5 s = .halted { s with pc := 0x8001#16, ir := 0xEA#8 } := by decide
/-- R68: the lines of the resource; S9: a duplicate key and a key out of range are reported. -/
theorem test_build_table :
    buildTable [] (some ["0xEA = NOP;Implied".toList, "0x4C = JMP;Absolute".toList])
      = .ok [⟨0x4C#8, .jmp, .absolute⟩, ⟨0xEA#8, .nop, .implied⟩] ∧
    buildTable [] (some ["0xA9 = LDA;Immediate".toList, "0xA9 = LDX;Immediate".toList]) = .error (.malformed [(1, .duplicateKey)]) ∧
    buildTable [] (some ["0x1A9 = LDA;Immediate".toList]) = .error (.malformed [(0, .badKey)]) ∧
    buildTable [] (some ["0xea = NOP;Implied".toList]) = .ok [⟨0xEA#8, .nop, .implied⟩] ∧
    buildTable [] (some ["0xG0 = NOP;Implied".toList]) = .error (.malformed [(0, .badKey)]) ∧
    buildTable [] (some ["0xA0 = LDY;Immediate".toList]) = .error (.malformed [(0, .unknownInstruction)]) ∧
    buildTable ["LDY"] (some ["0xA0 = LDY;Immediate".toList]) = .ok [⟨0xA0#8, .other "LDY", .immediate⟩] := by decide


/-! ### Witnesses: states and operands that meet the hypotheses of each obligation together -/

/-- ADC #$10 at 8000, A = 50. -/
def adcState : State := { at8000 [0x69#8, 0x10#8] [] with a := 0x0050#16 }
/-- An unpopulated byte at 8000. -/
def badState : State := at8000 [0x02#8] []
/-- ASL $10 at 8000, address 0010 not writable. -/
def aslState : State :=
  let s := at8000 [0x06#8, 0x10#8] [(0x0010, 0x81#8)]
  { s with cfg := { s.cfg with unwritable := [⟨0x0010, 0x0010⟩] } }
/-- JSR $9000 at 8000. -/
def jsrState : State := at8000 [0x20#8, 0x00#8, 0x90#8] []
/-- Address 0010 not readable and not writable. -/
def holeState : State :=
  let s := at8000 [0xEA#8] []
  { s with cfg := { s.cfg with unreadable := [⟨0x0010, 0x0010⟩], unwritable := [⟨0x0010, 0x0010⟩] } }

theorem inv_of_checks {s : State} (h : decide (s.a.toNat ≤ 0xFF) && decide (s.x.toNat ≤ 0xFF) && decide (s.y.toNat ≤ 0xFF) &&
    decide (s.cfg.stackBase.toNat + s.sp.toNat ≤ 0xFFFF) && s.mem.wf && s.cfg.opTable.wellFormed = true) : s.Inv := by
  simp only [Bool.and_eq_true, decide_eq_true_eq] at h
  obtain ⟨⟨⟨⟨⟨h1, h2⟩, h3⟩, h4⟩, h5⟩, h6⟩ := h
  exact ⟨h1, h2, h3, h4, h5, h6⟩

/-- The launch constraints, with A, X, Y and the top of the stack at their bounds. -/
theorem witness_LaunchMeetsInvariant :
    LaunchParams.wellFormed { defaultConfig with stackBase := 0xFF02#16 }
      { defaultLaunch with aReset := 0x00FF#16, xReset := 0x00FF#16, yReset := 0x00FF#16 } = true := by decide
theorem witness_StepPreservesInvariant :
    adcState.Inv ∧ (∃ t, step adcState = .next t) ∧ badState.Inv ∧ (∃ f, step badState = .fault f) :=
  ⟨inv_of_checks (by decide), ⟨_, rfl⟩, inv_of_checks (by decide), ⟨_, rfl⟩⟩
theorem witness_StepPreservesReservedFlags :
    Flag.d ∈ [Flag.i, Flag.d, Flag.b, Flag.u] ∧ (∃ t, step adcState = .next t) ∧ (∃ f, step badState = .fault f) :=
  ⟨by decide, ⟨_, rfl⟩, ⟨_, rfl⟩⟩
theorem witness_StepPreservesYAndConfiguration : (∃ t, step jsrState = .next t) ∧ (∃ f, step badState = .fault f) :=
  ⟨⟨_, rfl⟩, ⟨_, rfl⟩⟩
theorem witness_SpOnlyFallsAndOnlyInJsr :
    (∃ t, step jsrState = .next t) ∧ (∃ f, step { jsrState with sp := 0x0001#16 } = .fault f) ∧
    (Instr.adcImmediate 0x10#8).kind ≠ .jsr ∧ (∃ t, exec (.adcImmediate 0x10#8) adcState = .next t) ∧
    (Instr.aslZeroPage 0x10#8).kind ≠ .jsr ∧ (∃ f, exec (.aslZeroPage 0x10#8) aslState = .fault f) :=
  ⟨⟨_, rfl⟩, ⟨_, rfl⟩, by decide, ⟨_, rfl⟩, by decide, ⟨_, rfl⟩⟩
/-- The two states differ in the decimal flag. -/
theorem witness_ReservedFlagsAreNeverRead :
    AgreesOutside [2, 3, 4, 5] 0x08#8 adcState.p ∧ (∃ t, step adcState = .next t) :=
  ⟨agreesOutside_iff.mpr (by decide), ⟨_, rfl⟩⟩
theorem witness_LatchesAreNeverObserved : ∃ t, step adcState = .next t := ⟨_, rfl⟩
theorem witness_FlagsOutsideTheListAreKept :
    (Flag.d ∉ flagsWritten (Instr.adcImmediate 0x10#8).kind ∧ ∃ t, exec (.adcImmediate 0x10#8) adcState = .next t) ∧
    (Flag.v ∉ flagsWritten (Instr.aslZeroPage 0x10#8).kind ∧ ∃ f, exec (.aslZeroPage 0x10#8) aslState = .fault f) :=
  ⟨⟨by decide, _, rfl⟩, by decide, _, rfl⟩
/-- One instruction for each clause. -/
theorem witness_RegistersAreWrittenOnlyByTheirWriters :
    ((Instr.staZeroPage 0x10#8).kind ∉ [InstructionKind.lda, .adc] ∧ Instr.staZeroPage 0x10#8 ≠ .aslAccumulator ∧
      (Instr.staZeroPage 0x10#8).kind ≠ .ldx ∧
      (Instr.staZeroPage 0x10#8).kind ∉ [InstructionKind.jmp, .jsr, .bcs, .bcc, .beq, .bne] ∧
      ∃ t, exec (.staZeroPage 0x10#8) adcState = .next t) ∧
    ((Instr.adcImmediate 0x10#8).kind ∉ [InstructionKind.sta, .stx, .jsr, .asl] ∧
      ∃ t, exec (.adcImmediate 0x10#8) adcState = .next t) :=
  ⟨⟨by decide, by decide, by decide, by decide, _, rfl⟩, by decide, _, rfl⟩
/-- G3 and G2: the increment to FFFF exactly, and one past it. -/
theorem witness_RegIncIsCheckedAndSaturates :
    (State.reg { adcState with pc := 0xFFFD#16 } .pc).toNat + 2 ≤ 0xFFFF ∧
    0xFFFF < (State.reg { adcState with pc := 0xFFFD#16 } .pc).toNat + 3 := by decide
/-- G4 and G5: the decrement to 0 exactly, and one past it. -/
theorem witness_RegDecIsCheckedAndSaturates :
    1 ≤ (State.reg { adcState with sp := 0x0001#16 } .sp).toNat ∧ (State.reg { adcState with sp := 0x0001#16 } .sp).toNat < 2 := by
  decide
theorem witness_RegisterSetMasksTo16Bits : RegName.x ≠ RegName.a := by decide
theorem witness_FlagOperationsTouchOneBit : Flag.z ≠ Flag.c := by decide
theorem witness_ValueImpliesFlagSetters : Flag.c ≠ Flag.z ∧ Flag.c ≠ Flag.n ∧ Flag.z ≠ Flag.c := by decide
/-- The last address, the first one above it, and a hole with its neighbour. -/
theorem witness_MemReadAnswersOrRefuses :
    (∀ r ∈ holeState.cfg.unreadable, ¬(r.lo ≤ 0xFFFF ∧ 0xFFFF ≤ r.hi)) ∧ 0xFFFF < 0x10000 ∧
    (∀ r ∈ holeState.cfg.unreadable, ¬(r.lo ≤ 0x0011 ∧ 0x0011 ≤ r.hi)) ∧
    (∃ r ∈ holeState.cfg.unreadable, r.lo ≤ 0x0010 ∧ 0x0010 ≤ r.hi) := by decide
theorem witness_MemWriteStoresOneByteOrRefuses :
    holeState.mem.wf = true ∧ (∀ r ∈ holeState.cfg.unwritable, ¬(r.lo ≤ 0xFFFF ∧ 0xFFFF ≤ r.hi)) ∧ 0xFFFF < 0x10000 ∧
    (∃ r ∈ holeState.cfg.unwritable, r.lo ≤ 0x0010 ∧ 0x0010 ≤ r.hi) := by decide
/-- Two memories written in two orders. -/
theorem witness_EqualContentsAreEqualMemories :
    let m := (Memory.write [] 5 0x01#8).write 3 0x02#8
    let n := (Memory.write [] 3 0x02#8).write 5 0x01#8
    m.wf = true ∧ n.wf = true ∧ ∀ addr, addr ≤ 0xFFFF → m.read addr = n.read addr :=
  ⟨by decide, by decide, fun _ _ => rfl⟩
/-- STA $8000 at 8000 stores an unpopulated byte there, STX $8000 a NOP. -/
theorem witness_StoreIsSeenByTheNextFetch :
    let s := { at8000 [] [] with a := 0x0002#16, x := 0x00EA#16 }
    (s.mem.wf = true ∧ (Instr.staAbsolute 0x8000#16).kind = .sta ∧ 0x02#8 = s.a.setWidth 8 ∧
      ∃ t, exec (.staAbsolute 0x8000#16) s = .next t ∧ instrAddr (.staAbsolute 0x8000#16) s = .ok t.pc.toNat ∧
        t.canRead t.pc.toNat = true ∧ t.cfg.opTable.lookup 0x02#8 = none) ∧
    ((Instr.stxAbsolute 0x8000#16).kind = .stx ∧ 0xEA#8 = s.x.setWidth 8 ∧
      ∃ t, exec (.stxAbsolute 0x8000#16) s = .next t ∧ instrAddr (.stxAbsolute 0x8000#16) s = .ok t.pc.toNat ∧
        t.canRead t.pc.toNat = true ∧ decode t.cfg.opTable [0xEA#8] = .ok (.nop, []) ∧ t.pc.toNat < 0xFFFF) :=
  ⟨⟨by decide, by decide, by decide, _, rfl, rfl, rfl, rfl⟩, by decide, by decide, _, rfl, rfl, rfl, rfl, by decide⟩
theorem witness_DecodeOfEncode :
    defaultTable.wellFormed = true ∧ encode defaultTable (.staAbsoluteX 0x2000#16) = some [0x9D#8, 0x00#8, 0x20#8] := by decide
theorem witness_DefaultTableEncodesEveryInstruction :
    ((Instr.jmpRelative 0x05#8).kind = .jmp ∧ (Instr.jmpRelative 0x05#8).mode = .relative) ∧
    ¬((Instr.jmpAbsolute 0x8007#16).kind = .jmp ∧ (Instr.jmpAbsolute 0x8007#16).mode = .relative) := by decide
theorem witness_EncodeOfDecode :
    decode defaultTable [0x69#8, 0x10#8, 0xEA#8] = .ok (.adcImmediate 0x10#8, [0xEA#8]) := by decide
/-- A supported pair, a kind without a handler, and a pair outside R85. -/
theorem witness_SupportedPairsAreThe43 :
    (∃ ms, (InstructionKind.ldx, ms) ∈ supportedPairs ∧ AddressingModeKind.immediate ∈ ms) ∧
    InstructionKind.other "LDY" = .other "LDY" ∧ (∀ name, InstructionKind.ldx ≠ .other name) ∧
    (∀ ms, (InstructionKind.ldx, ms) ∈ supportedPairs → AddressingModeKind.zeroPage ∉ ms) :=
  ⟨⟨[.immediate], by decide⟩, rfl, by simp, by simp [supportedPairs]⟩
/-- NOP at FFFE, the last place it can be passed. -/
theorem witness_StepRunsTheDecodedInstruction :
    let s := placeBytes 0xFFFE [0xEA#8] { adcState with pc := 0xFFFE#16 }
    s.canReadFrom s.pc.toNat Instr.nop.length = true ∧ s.pc.toNat + Instr.nop.length ≤ 0xFFFF ∧
    decode s.cfg.opTable (s.bytesFrom s.pc.toNat Instr.nop.length) = .ok (.nop, []) := by decide
theorem witness_RefusedOpcodeReadFaults : State.canRead { holeState with pc := 0x0010#16 } 0x0010 = false := by decide
theorem witness_UnpopulatedByteFaults :
    badState.canRead badState.pc.toNat = true ∧ badState.cfg.opTable.lookup (badState.byteAt badState.pc.toNat) = none := by decide
/-- X4: JMP at FFFD. -/
theorem witness_FetchPastTheTopFaults :
    let s := placeBytes 0xFFFD [0x4C#8, 0x00#8, 0x80#8] { adcState with pc := 0xFFFD#16 }
    s.cfg.opTable.lookup (s.byteAt s.pc.toNat) = some ⟨0x4C#8, .jmp, .absolute⟩ ∧
    0xFFFF < s.pc.toNat + 1 + operandLength .absolute ∧
    (∀ addr, s.pc.toNat ≤ addr → addr ≤ 0xFFFF → s.canRead addr = true) := by
  refine ⟨by decide, by decide, fun addr _ h => ?_⟩
  show (decide (addr ≤ 0xFFFF) && !false) = true
  simp [h]
/-- A JMP whose second operand byte is not readable. -/
theorem witness_RefusedOperandReadFaults :
    let s := placeBytes 0x000E [0x4C#8, 0x00#8, 0x80#8] { holeState with pc := 0x000E#16 }
    s.cfg.opTable.lookup (s.byteAt s.pc.toNat) = some ⟨0x4C#8, .jmp, .absolute⟩ ∧
    s.canReadFrom s.pc.toNat (1 + 1) = true ∧ 1 < operandLength .absolute ∧ s.pc.toNat + 1 + 1 ≤ 0xFFFF ∧
    s.canRead (s.pc.toNat + 1 + 1) = false := by decide
/-- X10 and X12. -/
theorem witness_UnselectedEntryFaultsAfterFetch :
    (let e : OperationCode := ⟨0xA0#8, .other "LDY", .relative⟩;
      let s := withEntry e (at8000 [0xA0#8, 0x01#8] []);
      s.cfg.opTable.lookup (s.byteAt s.pc.toNat) = some e ∧ s.canReadFrom s.pc.toNat (1 + operandLength e.mode) = true ∧
      s.pc.toNat + 1 + operandLength e.mode ≤ 0xFFFF ∧
      takeOperand (operandLength e.mode) (s.bytesFrom (s.pc.toNat + 1) (operandLength e.mode)) = some (0x0001#16, []) ∧
      e.kind = .other "LDY") ∧
    (let e : OperationCode := ⟨0xA6#8, .ldx, .zeroPage⟩;
      let s := withEntry e (at8000 [0xA6#8, 0x10#8] []);
      s.cfg.opTable.lookup (s.byteAt s.pc.toNat) = some e ∧ s.canReadFrom s.pc.toNat (1 + operandLength e.mode) = true ∧
      s.pc.toNat + 1 + operandLength e.mode ≤ 0xFFFF ∧
      takeOperand (operandLength e.mode) (s.bytesFrom (s.pc.toNat + 1) (operandLength e.mode)) = some (0x0010#16, []) ∧
      (∀ name, e.kind ≠ .other name) ∧ e.mode ∉ supported e.kind) :=
  ⟨⟨by decide, by decide, by decide, by decide, rfl⟩, by decide, by decide, by decide, by decide, by simp, by decide⟩
/-- Pointers at 00FF: read, its low byte refused (at a hole at 0010), its high byte refused (at a hole at 0010). -/
theorem witness_IndirectEffectiveAddresses :
    (0x00FF = ((0x00FF#16).toNat + adcState.x.toNat) % 0x100 ∧ adcState.canRead 0x00FF = true ∧ adcState.canRead 0x0100 = true) ∧
    (0x0010 = ((0x0010#16).toNat + holeState.x.toNat) % 0x100 ∧ holeState.canRead 0x0010 = false) ∧
    (0x000F = ((0x000F#16).toNat + holeState.x.toNat) % 0x100 ∧ holeState.canRead 0x000F = true ∧
      holeState.canRead 0x0010 = false) ∧
    (0x00FF = (0x00FF#16).toNat ∧ 0x0010 = (0x0010#16).toNat ∧ 0x000F = (0x000F#16).toNat) := by decide
theorem witness_SourceValueByMode :
    (AddressingModeKind.zeroPage.hasAddr = true ∧ effAddr .lda .zeroPage 0x0011#16 holeState = .ok 0x0011 ∧
      holeState.canRead 0x0011 = true) ∧
    (effAddr .lda .zeroPage 0x0010#16 holeState = .ok 0x0010 ∧ holeState.canRead 0x0010 = false) ∧
    (let s := { holeState with x := 0x0001#16 };
      effAddr .lda .absoluteX 0xFFFF#16 s = .ok 0x10000 ∧ 0xFFFF < 0x10000) ∧
    (AddressingModeKind.indirectY.hasAddr = true ∧
      effAddr .lda .indirectY 0x0010#16 holeState = .error (.readOutOfMemory 0x0010 holeState)) ∧
    AddressingModeKind.immediate.hasAddr = false ∧
    (Instr.aslAccumulator.mode = .accumulator ∧ Instr.aslAccumulator.kind = .asl) ∧
    (AddressingModeKind.accumulator = .accumulator ∧ InstructionKind.lda ≠ .asl) :=
  ⟨by decide, by decide, by decide, ⟨rfl, rfl⟩, rfl, ⟨rfl, rfl⟩, rfl, by decide⟩
/-- The sum at both ends of the address space and one past each. -/
theorem witness_RelativeJumpIsChecked :
    (0 ≤ (((0xFF80#16).toNat : Int) + 127) ∧ ((0xFF80#16).toNat : Int) + 127 ≤ 0xFFFF) ∧
    0xFFFF < ((0xFF81#16).toNat : Int) + 127 ∧
    (0 ≤ ((0x0080#16).toNat : Int) + -128 ∧ ((0x0080#16).toNat : Int) + -128 ≤ 0xFFFF) ∧ ((0x007F#16).toNat : Int) + -128 < 0 := by
  decide
theorem witness_AdcAddsWithCarry :
    (Instr.adcImmediate 0x10#8).kind = .adc ∧ instrSource (.adcImmediate 0x10#8) adcState = .ok 0x10#8 ∧
    (Instr.adcZeroPage 0x10#8).kind = .adc ∧
      instrSource (.adcZeroPage 0x10#8) holeState = .error (.readOutOfMemory 0x0010 holeState) :=
  ⟨rfl, rfl, rfl, rfl⟩
/-- D2: 7F + 01 overflows. -/
theorem witness_AdcOverflowIsSignedOverflow :
    let s := { adcState with a := 0x007F#16 }
    (Instr.adcImmediate 0x01#8).kind = .adc ∧ s.a.toNat ≤ 0xFF ∧ instrSource (.adcImmediate 0x01#8) s = .ok 0x01#8 ∧
    ∃ t, exec (.adcImmediate 0x01#8) s = .next t := ⟨rfl, by decide, rfl, _, rfl⟩
theorem witness_BitTestsTheSourceValue :
    (Instr.bitZeroPage 0x11#8).kind = .bit ∧ instrSource (.bitZeroPage 0x11#8) holeState = .ok 0x00#8 ∧
    instrSource (.bitZeroPage 0x10#8) holeState = .error (.readOutOfMemory 0x0010 holeState) := ⟨rfl, rfl, rfl⟩
/-- A readable and writable byte, a refused read, and a refused write-back. -/
theorem witness_AslShiftsLeft :
    (Instr.aslZeroPage 0x10#8).kind = .asl ∧ (Instr.aslZeroPage 0x10#8).mode ≠ .accumulator ∧
    (adcState.mem.wf = true ∧ instrAddr (.aslZeroPage 0x10#8) adcState = .ok 0x10 ∧ adcState.canRead 0x10 = true ∧
      adcState.canWrite 0x10 = true) ∧
    (holeState.mem.wf = true ∧ instrAddr (.aslZeroPage 0x10#8) holeState = .ok 0x10 ∧ holeState.canRead 0x10 = false) ∧
    (aslState.mem.wf = true ∧ instrAddr (.aslZeroPage 0x10#8) aslState = .ok 0x10 ∧ aslState.canRead 0x10 = true ∧
      aslState.canWrite 0x10 = false) :=
  ⟨rfl, by decide, ⟨by decide, rfl, rfl, rfl⟩, ⟨by decide, rfl, rfl⟩, by decide, rfl, rfl, rfl⟩
theorem witness_LdaLoadsTheSourceValue :
    (Instr.ldaImmediate 0x00#8).kind = .lda ∧ instrSource (.ldaImmediate 0x00#8) adcState = .ok 0x00#8 ∧
    (Instr.ldaZeroPage 0x10#8).kind = .lda ∧
      instrSource (.ldaZeroPage 0x10#8) holeState = .error (.readOutOfMemory 0x0010 holeState) := ⟨rfl, rfl, rfl, rfl⟩
theorem witness_LdxLoadsTheImmediate : AddressingModeKind.zeroPage ≠ .immediate := by decide
/-- An accepted store, a refused one, one above FFFF, and a refused pointer read. -/
theorem witness_StaStoresA :
    holeState.mem.wf = true ∧ (Instr.staZeroPage 0x11#8).kind = .sta ∧
    (instrAddr (.staZeroPage 0x11#8) holeState = .ok 0x11 ∧ holeState.canWrite 0x11 = true) ∧
    (instrAddr (.staZeroPage 0x10#8) holeState = .ok 0x10 ∧ holeState.canWrite 0x10 = false) ∧
    (instrAddr (.staAbsoluteX 0xFFFF#16) { holeState with x := 0x0001#16 } = .ok 0x10000 ∧ 0xFFFF < 0x10000) ∧
    instrAddr (.staIndirectY 0x10#8) holeState = .error (.readOutOfMemory 0x0010 holeState) :=
  ⟨by decide, rfl, ⟨rfl, rfl⟩, ⟨rfl, rfl⟩, ⟨rfl, by decide⟩, rfl⟩
theorem witness_StxStoresX :
    holeState.mem.wf = true ∧ (Instr.stxZeroPage 0x11#8).kind = .stx ∧
    holeState.canWrite (Instr.stxZeroPage 0x11#8).operand.toNat = true ∧
    holeState.canWrite (Instr.stxZeroPage 0x10#8).operand.toNat = false := by decide
/-- SP at 2, 0 and 1, and refused writes at the two stack addresses. -/
theorem witness_JsrPushesThenJumps :
    (let s := { jsrState with sp := 0x0002#16 };
      s.mem.wf = true ∧ 0x0102 = s.cfg.stackBase.toNat + s.sp.toNat ∧ 2 ≤ s.sp.toNat ∧ s.canWrite 0x0102 = true ∧
      s.canWrite (0x0102 - 1) = true) ∧
    (let s := { holeState with cfg := { holeState.cfg with stackBase := 0x0010#16 }, sp := 0x0000#16 };
      s.mem.wf = true ∧ 0x0010 = s.cfg.stackBase.toNat + s.sp.toNat ∧ s.canWrite 0x0010 = false) ∧
    (let s := { jsrState with sp := 0x0000#16 };
      s.mem.wf = true ∧ 0x0100 = s.cfg.stackBase.toNat + s.sp.toNat ∧ s.sp.toNat = 0 ∧ s.canWrite 0x0100 = true) ∧
    (let s := { holeState with cfg := { holeState.cfg with stackBase := 0x0010#16 }, sp := 0x0001#16 };
      s.mem.wf = true ∧ 0x0011 = s.cfg.stackBase.toNat + s.sp.toNat ∧ 1 ≤ s.sp.toNat ∧ s.canWrite 0x0011 = true ∧
      s.canWrite (0x0011 - 1) = false) ∧
    (let s := { jsrState with sp := 0x0001#16 };
      s.mem.wf = true ∧ 0x0101 = s.cfg.stackBase.toNat + s.sp.toNat ∧ s.sp.toNat = 1 ∧ s.canWrite 0x0101 = true ∧
      s.canWrite (0x0101 - 1) = true) := by decide
theorem witness_BranchesFollowTheirFlags :
    State.p { adcState with p := 0x03#8 } = 0x03#8 ∧ (0x03#8).getLsbD 0 = true ∧ (0x03#8).getLsbD 1 = true ∧
    adcState.p.getLsbD 0 = false ∧ adcState.p.getLsbD 1 = false := by decide
/-- An instruction of each kind that raises an error. -/
theorem witness_HandlerErrorsByInstruction :
    (∃ f, exec (.adcZeroPage 0x10#8) holeState = .fault f) ∧ (∃ f, exec (.ldaZeroPage 0x10#8) holeState = .fault f) ∧
    (∃ f, exec (.bitZeroPage 0x10#8) holeState = .fault f) ∧ (∃ f, exec (.aslZeroPage 0x10#8) holeState = .fault f) ∧
    (∃ f, exec (.staZeroPage 0x10#8) holeState = .fault f) ∧ (∃ f, exec (.staIndirectX 0x10#8) holeState = .fault f) ∧
    (∃ f, exec (.stxZeroPage 0x10#8) holeState = .fault f) ∧
    (∃ f, exec (.jsr 0x9000#16) { jsrState with sp := 0x0001#16 } = .fault f) ∧
    (∃ f, exec (.bne 0x80#8) { adcState with pc := 0x0012#16 } = .fault f) :=
  ⟨⟨_, rfl⟩, ⟨_, rfl⟩, ⟨_, rfl⟩, ⟨_, rfl⟩, ⟨_, rfl⟩, ⟨_, rfl⟩, ⟨_, rfl⟩, ⟨_, rfl⟩, ⟨_, rfl⟩⟩
theorem witness_FaultedStateByInstruction :
    (∃ f, exec (.staZeroPage 0x10#8) holeState = .fault f) ∧ (∃ f, exec (.aslZeroPage 0x10#8) aslState = .fault f) ∧
    exec (.aslZeroPage 0x10#8) holeState = .fault (.readOutOfMemory 0x0010 holeState) ∧
    (∃ f, exec (.beq 0x7F#8) { adcState with pc := 0xFFF2#16, p := 0x02#8 } = .fault f) :=
  ⟨⟨_, rfl⟩, ⟨_, rfl⟩, rfl, ⟨_, rfl⟩⟩
theorem witness_RunStopsAtHaltPc :
    let s := { adcState with cfg := { adcState.cfg with haltPc := some 0x8000#16 } }
    s.cfg.haltPc = some s.pc := by decide
/-- A run that goes on, one that has halted, one that has faulted. -/
theorem witness_RunsComposeAndEndsAreFinal :
    (∃ t, runSteps 1 adcState = .running t) ∧
    (∃ t, runSteps 1 { adcState with cfg := { adcState.cfg with haltPc := some 0x8002#16 } } = .halted t) ∧
    (∃ f, runSteps 1 badState = .faulted f) := ⟨⟨_, rfl⟩, ⟨_, rfl⟩, ⟨_, rfl⟩⟩
theorem witness_BuiltTablesAreWellFormed :
    buildTable [] (some ["0xEA = NOP;Implied".toList]) = .ok [⟨0xEA#8, .nop, .implied⟩] := by decide
theorem witness_MalformedResourceBuildsNoTable :
    parseEntry [] "0xA9 = LDA;IMMEDIATE".toList = .error .unknownMode ∧
    parseEntry [] "0xA9 = LDA;Immediate".toList = .ok ⟨0xA9#8, .lda, .immediate⟩ ∧
    parseEntry [] "0xA9 = LDX;Immediate".toList = .ok ⟨0xA9#8, .ldx, .immediate⟩ := by decide

end Sys2Proof.Tests
end

/-! SUPPORT. Proofs of the statements of `10_state.md`: what every step keeps, what an instruction writes, what is never read,
and the operations of the Register cells and of the flags register. -/

/-! ### What every step keeps -/

namespace Sys2Proof.Machine

/-- What no step breaks: the bounds of an instruction's effect, seen from the state up to what the fetch stage writes
(R80, R161). -/
def StepEffect (s t : State) : Prop :=
  ∃ (ir : Byte) (pc operand : Word), Effect { s with ir := ir, pc := pc, operand := operand } t

/-- Every step has the effect bound, whether it completes or raises an error. -/
theorem step_effect (s : State) :
    (∀ t, step s = .next t → StepEffect s t) ∧ (∀ f, step s = .fault f → StepEffect s f.after) := by
  have of_fault {f : Fault} (hf : step s = .fault f) (h : StepEffect s f.after) :
      (∀ t, step s = .next t → StepEffect s t) ∧ (∀ f, step s = .fault f → StepEffect s f.after) := by
    simpa [hf] using h
  obtain ⟨f, hf, ha⟩ | ⟨f, b, w, op, hf, ha⟩ | ⟨i, n, op, hi⟩ := step_cases s
  · exact of_fault hf ⟨s.ir, s.pc, s.operand, ha ▸ .refl s⟩
  · exact of_fault hf ⟨b, w, op, ha ▸ .refl _⟩
  · rw [hi]
    exact ⟨fun t h => ⟨_, _, _, exec_next_effect h⟩, fun f h => ⟨_, _, _, exec_fault_effect h⟩⟩

/-- The effect bound keeps the invariant: it leaves Y and the configuration alone, SP only falls, and the bounds on A and X and
the canonical form of memory pass through. -/
theorem StepEffect.inv {s t : State} (h : StepEffect s t) (hs : s.Inv) : t.Inv := by
  obtain ⟨_, _, _, h⟩ := h
  have hsp : t.sp.toNat ≤ s.sp.toNat := h.sp
  exact {
    a_le := h.a hs.a_le
    x_le := h.x hs.x_le
    y_le := h.y ▸ hs.y_le
    stack_le := by rw [h.cfg]; exact Nat.le_trans (Nat.add_le_add_left hsp _) hs.stack_le
    mem_wf := h.mem hs.mem_wf
    table_wf := h.cfg ▸ hs.table_wf }

/-- The reserved bits of P, 2 to 5, pass through a step (R22). -/
theorem StepEffect.flag {s t : State} (h : StepEffect s t) {f : Flag} (hf : f.bit ∉ [0, 1, 6, 7]) : t.flag f = s.flag f := by
  obtain ⟨_, _, _, h⟩ := h
  exact h.flags f.bit hf

theorem StepEffect.y_cfg {s t : State} (h : StepEffect s t) : t.y = s.y ∧ t.cfg = s.cfg := by
  obtain ⟨_, _, _, h⟩ := h
  exact ⟨h.y, h.cfg⟩

theorem StepEffect.sp_le {s t : State} (h : StepEffect s t) : t.sp.toNat ≤ s.sp.toNat := by
  obtain ⟨_, _, _, h⟩ := h
  exact h.sp

/-- Settles O4: the effect bound of a step, completed or faulted, keeps each clause of the invariant. -/
theorem stepPreservesInvariant : Obligations.StepPreservesInvariant := fun s hs =>
  ⟨fun t h => ((step_effect s).1 t h).inv hs, fun f h => ((step_effect s).2 f h).inv hs⟩

/-- Settles O5: I, D, B and U stand at bits 2 to 5, outside the bits a step writes. -/
theorem stepPreservesReservedFlags : Obligations.StepPreservesReservedFlags := by
  intro s f hf
  have hbit : f.bit ∉ [0, 1, 6, 7] := by
    revert f
    decide
  exact ⟨fun t h => ((step_effect s).1 t h).flag hbit, fun e h => ((step_effect s).2 e h).flag hbit⟩

/-- Settles O6, from the effect bound of a step. -/
theorem stepPreservesYAndConfiguration : Obligations.StepPreservesYAndConfiguration := fun s =>
  ⟨fun t h => ((step_effect s).1 t h).y_cfg, fun e h => ((step_effect s).2 e h).y_cfg⟩

end Sys2Proof.Machine

/-! ### What an instruction writes -/

namespace Sys2Proof.Machine

/-- The handler of a kind (R84). No instruction has a kind without a handler; it would raise R153's error. -/
def handler (k : InstructionKind) (mode : AddressingModeKind) (op : Word) (s : State) : Except Fault State :=
  match k with
  | .adc => adc mode op s
  | .asl => if mode = .accumulator then aslAccumulator s else aslMemory mode op s
  | .bcc => branchIf .c false op s
  | .bcs => branchIf .c true op s
  | .beq => branchIf .z true op s
  | .bit => bit mode op s
  | .bne => branchIf .z false op s
  | .clc => .ok (s.setFlag .c false)
  | .jmp => if mode = .absolute then jumpAbsolute op s else relativeJump (displacement op) s
  | .jsr => jsr op s
  | .lda => lda mode op s
  | .ldx => ldx op s
  | .nop => .ok s
  | .sec => .ok (s.setFlag .c true)
  | .sta => sta mode op s
  | .stx => stx mode op s
  | .other name => raise (.unimplementedInstruction name) s

/-- The meaning of an instruction is the handler of its kind at its mode and raw operand (R84). -/
theorem exec_eq_handler (i : Instr) (s : State) : exec i s = finish (handler i.kind i.mode i.operand s) := by
  cases i <;> rfl

/-- Every instruction has a kind with a handler (R85). -/
theorem kind_ne_other (i : Instr) (name : String) : i.kind ≠ .other name := by
  cases i <;> simp [Instr.kind]

/-- Whatever state a handler leaves, by completing or by raising an error, has the property. -/
def Leaves (P : State → Prop) (r : Except Fault State) : Prop :=
  (∀ t, r = .ok t → P t) ∧ (∀ f, r = .error f → P f.after)

section
variable {P : State → Prop} {s t : State}

theorem Leaves.ok (h : P t) : Leaves P (.ok t) :=
  ⟨fun _ e => Except.ok.inj e ▸ h, fun _ e => by cases e⟩

theorem Leaves.error {f : Fault} (h : P f.after) : Leaves P (.error f) :=
  ⟨fun _ e => (by cases e), fun _ e => Except.error.inj e ▸ h⟩

theorem leaves_memWrite {addr : Nat} {v : Byte} (h0 : P s) (h : ∀ m, P { s with mem := m }) :
    Leaves P (memWrite addr v s) := by
  cases hw : memWrite addr v s with
  | ok t => obtain ⟨-, rfl⟩ := memWrite_eq_ok.mp hw; exact .ok (h _)
  | error f => obtain ⟨-, rfl⟩ := memWrite_eq_error.mp hw; exact .error h0

theorem leaves_relativeJump (d : Int) (h : ∀ v, P (s.setReg .pc v)) : Leaves P (relativeJump d s) := by
  unfold relativeJump
  split
  · obtain ⟨v, e⟩ | ⟨v, e⟩ := regInc_frame .pc d.toNat s <;> rw [e]
    · exact .ok (h v)
    · exact .error (h v)
  · obtain ⟨v, e⟩ | ⟨v, e⟩ := regDec_frame .pc (-d).toNat s <;> rw [e]
    · exact .ok (h v)
    · exact .error (h v)

theorem leaves_branchIf (f : Flag) (b : Bool) (op : Word) (h : ∀ v, P (s.setReg .pc v)) : Leaves P (branchIf f b op s) := by
  unfold branchIf
  split
  · exact leaves_relativeJump _ h
  · exact .ok (setReg_self s .pc ▸ h s.pc.toNat)

/-- A push leaves SP and memory changed, or nothing (R16). -/
theorem leaves_pushByte (v : Byte) (h : ∀ sp m, P { s with sp := sp, mem := m }) : Leaves P (pushByte v s) := by
  obtain ⟨-, -, e⟩ | ⟨-, e⟩ | ⟨-, -, e⟩ := pushByte_cases v s <;> rw [e]
  · exact .ok (h _ _)
  · exact .error (h s.sp s.mem)
  · exact .error (h s.sp _)

theorem Leaves.bind {Q : State → Prop} {r : Except Fault State} {g : State → Except Fault State} (hr : Leaves Q r)
    (hg : ∀ t, Q t → Leaves P (g t)) (he : ∀ t, Q t → P t) : Leaves P (r >>= g) := by
  cases r with
  | ok t => exact hg t (hr.1 t rfl)
  | error f => exact .error (he _ (hr.2 f rfl))

/-- JSR leaves SP, PC and memory changed, whichever of its lines raises (R131). -/
theorem leaves_jsr (op : Word) (h : ∀ sp pc m, P { s with sp := sp, pc := pc, mem := m }) : Leaves P (jsr op s) := by
  have hpush : ∀ v t, (∃ sp m, t = { s with sp := sp, mem := m }) →
      Leaves (fun t => ∃ sp m, t = { s with sp := sp, mem := m }) (pushByte v t) := by
    rintro v _ ⟨sp, m, rfl⟩
    exact leaves_pushByte v fun sp' m' => ⟨sp', m', rfl⟩
  have hleft : ∀ t, (∃ sp m, t = { s with sp := sp, mem := m }) → P t := by
    rintro _ ⟨sp, m, rfl⟩
    exact h sp s.pc m
  refine (hpush _ s ⟨s.sp, s.mem, rfl⟩).bind (fun t ht => ?_) hleft
  refine (hpush _ t ht).bind (fun u hu => ?_) hleft
  obtain ⟨sp, m, rfl⟩ := hu
  exact .ok (h sp _ m)

/-- A handler that turns a source value into a result leaves that result, or nothing changed. -/
theorem leaves_source {k : InstructionKind} {mode : AddressingModeKind} {op : Word} {g : Byte → State}
    (hm : mode = .immediate ∨ mode.hasAddr = true) (h0 : P s) (h : ∀ m, P (g m)) :
    Leaves P (do let m ← sourceValue k mode op s; return g m) := by
  cases hs : sourceValue k mode op s with
  | ok m => exact .ok (h m)
  | error f =>
    obtain rfl | hm := hm
    · simp [sourceValue] at hs
    · obtain ⟨_, rfl⟩ := sourceValue_error hm hs; exact .error h0

/-- A handler that stores one byte at the effective address leaves memory changed, or nothing. -/
theorem leaves_store {k : InstructionKind} {mode : AddressingModeKind} {op : Word} {v : Byte} (hm : mode.hasAddr = true)
    (h0 : P s) (h : ∀ m, P { s with mem := m }) : Leaves P (do let ea ← effAddr k mode op s; memWrite ea v s) := by
  cases he : effAddr k mode op s with
  | ok ea => exact leaves_memWrite h0 h
  | error f => obtain ⟨_, rfl⟩ := effAddr_error hm he; exact .error h0

/-- ASL in a memory mode leaves the flags written, with or without the byte (R112), or nothing changed. -/
theorem leaves_aslMemory {mode : AddressingModeKind} {op : Word} (hm : mode.hasAddr = true) (h0 : P s)
    (hf : ∀ raw, P (aslFlags raw s)) (h : ∀ raw m, P { aslFlags raw s with mem := m }) : Leaves P (aslMemory mode op s) := by
  unfold aslMemory
  cases he : effAddr .asl mode op s with
  | error f => obtain ⟨_, rfl⟩ := effAddr_error hm he; exact .error h0
  | ok ea =>
    show Leaves P (do let v ← memRead ea s; memWrite ea (BitVec.ofNat 8 (v.toNat * 2)) (aslFlags (v.toNat * 2) s))
    cases hr : memRead ea s with
    | error f => obtain ⟨-, rfl⟩ := memRead_eq_error.mp hr; exact .error h0
    | ok v => exact leaves_memWrite (hf _) (h _)

end

/-- `t` differs from `s` at most in the listed cells, the listed flags, and memory where that may be written. -/
structure Frame (regs : List RegName) (flags : List Flag) (stores : Prop) (s t : State) : Prop where
  reg : ∀ r, r ∉ regs → t.reg r = s.reg r
  flag : ∀ f, f ∉ flags → t.flag f = s.flag f
  mem : ¬ stores → t.mem = s.mem

section
variable {regs : List RegName} {flags : List Flag} {stores : Prop} {s t u : State}

theorem Frame.refl : Frame regs flags stores s s := ⟨fun _ _ => rfl, fun _ _ => rfl, fun _ => rfl⟩

theorem Frame.setReg (h : Frame regs flags stores s t) {r : RegName} (hr : r ∈ regs) (v : Nat) :
    Frame regs flags stores s (t.setReg r v) :=
  ⟨fun q hq => (reg_setReg_other t (ne_of_mem_of_not_mem hr hq).symm v).trans (h.reg q hq),
    fun f hf => (flag_setReg t r v f).trans (h.flag f hf), fun hm => (setReg_mem t r v).trans (h.mem hm)⟩

theorem reg_setFlag (s : State) (f : Flag) (b : Bool) (r : RegName) : (s.setFlag f b).reg r = s.reg r := by
  cases r <;> rfl

theorem Frame.setFlag (h : Frame regs flags stores s t) {f : Flag} (hf : f ∈ flags) (b : Bool) :
    Frame regs flags stores s (t.setFlag f b) :=
  ⟨fun r hr => (reg_setFlag t f b r).trans (h.reg r hr),
    fun g hg => by
      rw [flag_setFlag, if_neg (ne_of_mem_of_not_mem hf hg).symm]
      exact h.flag g hg, h.mem⟩

theorem Frame.setMem (h : Frame regs flags stores s t) (hs : stores) (m : Memory) :
    Frame regs flags stores s { t with mem := m } :=
  ⟨fun r hr => .trans (by cases r <;> rfl) (h.reg r hr), h.flag, fun hm => absurd hs hm⟩

/-- SetCarith, SetZ and SetN in the order ADC and ASL use them (R110, R112). -/
theorem Frame.aslFlags (h : Frame regs flags stores s t) (hc : .c ∈ flags) (hz : .z ∈ flags) (hn : .n ∈ flags) (raw : Nat) :
    Frame regs flags stores s (aslFlags raw t) :=
  ((h.setFlag hc _).setFlag hz _).setFlag hn _

theorem frame_adcResult (ha : .a ∈ regs) (hv : .v ∈ flags) (hc : .c ∈ flags) (hz : .z ∈ flags) (hn : .n ∈ flags)
    (m : Byte) : Frame regs flags stores s (adcResult m s) :=
  ((Frame.refl.setFlag hv _).aslFlags hc hz hn _).setReg ha _

theorem frame_bitResult (hn : .n ∈ flags) (hv : .v ∈ flags) (hz : .z ∈ flags) (m : Byte) :
    Frame regs flags stores s (bitResult m s) :=
  ((Frame.refl.setFlag hn _).setFlag hv _).setFlag hz _

theorem frame_loadResult {r : RegName} (hr : r ∈ regs) (hz : .z ∈ flags) (hn : .n ∈ flags) (m : Byte) :
    Frame regs flags stores s (loadResult r m s) :=
  ((Frame.refl.setReg hr _).setFlag hz _).setFlag hn _

end

/-- The cells an instruction may write, by its kind and mode (R11, R12, R14, R15). -/
def regsWritten (k : InstructionKind) (mode : AddressingModeKind) : List RegName :=
  match k with
  | .adc | .lda => [.a]
  | .asl => if mode = .accumulator then [.a] else []
  | .ldx => [.x]
  | .jsr => [.sp, .pc]
  | .jmp | .bcs | .bcc | .beq | .bne => [.pc]
  | .bit | .clc | .sec | .nop | .sta | .stx | .other _ => []

/-- The kinds that may write memory (R112, R122, R123, R131). -/
def StoresMemory (k : InstructionKind) : Prop := k ∈ [.sta, .stx, .jsr, .asl]

/-- Whatever an instruction leaves, completed or faulted, differs only in what its kind writes. -/
theorem leaves_frame (i : Instr) (s : State) :
    Leaves (Frame (regsWritten i.kind i.mode) (flagsWritten i.kind) (StoresMemory i.kind) s)
      (handler i.kind i.mode i.operand s) := by
  cases hk : i.kind with
  | adc =>
    exact leaves_source (mode_of_source_kind (.inl hk)) .refl
      (frame_adcResult (by simp [regsWritten]) (by decide) (by decide) (by decide) (by decide))
  | lda =>
    exact leaves_source (mode_of_source_kind (.inr (.inl hk))) .refl
      (frame_loadResult (by simp [regsWritten]) (by decide) (by decide))
  | bit =>
    exact leaves_source (mode_of_source_kind (.inr (.inr hk))) .refl
      (frame_bitResult (by decide) (by decide) (by decide))
  | ldx =>
    exact leaves_source (.inl rfl) .refl (frame_loadResult (by simp [regsWritten]) (by decide) (by decide))
  | asl =>
    by_cases hm : i.mode = .accumulator
    · simp only [handler, regsWritten, hm, if_true]
      exact .ok ((Frame.refl.aslFlags (by decide) (by decide) (by decide) _).setReg (by decide) _)
    · simp only [handler, regsWritten, hm, if_false]
      have hflags : ∀ raw, Frame [] (flagsWritten .asl) (StoresMemory .asl) s (aslFlags raw s) := fun raw =>
        Frame.refl.aslFlags (by decide) (by decide) (by decide) raw
      exact leaves_aslMemory (mode_of_store_kind (.inr (.inr ⟨hk, hm⟩))) .refl hflags fun raw m =>
        (hflags raw).setMem (by simp [StoresMemory]) m
  | sta => exact leaves_store (mode_of_store_kind (.inl hk)) .refl (Frame.refl.setMem (by simp [StoresMemory]))
  | stx => exact leaves_store (mode_of_store_kind (.inr (.inl hk))) .refl (Frame.refl.setMem (by simp [StoresMemory]))
  | jsr =>
    refine leaves_jsr _ fun sp pc m => ⟨fun r hr => ?_, fun _ _ => rfl, fun hm => absurd (by simp [StoresMemory]) hm⟩
    cases r <;> simp [regsWritten] at hr ⊢
  | jmp =>
    simp only [handler]
    split
    · exact .ok (Frame.refl.setReg (r := .pc) (by simp [regsWritten]) _)
    · exact leaves_relativeJump _ (Frame.refl.setReg (r := .pc) (by simp [regsWritten]))
  | bcc => exact leaves_branchIf _ _ _ (Frame.refl.setReg (by simp [regsWritten]))
  | bcs => exact leaves_branchIf _ _ _ (Frame.refl.setReg (by simp [regsWritten]))
  | beq => exact leaves_branchIf _ _ _ (Frame.refl.setReg (by simp [regsWritten]))
  | bne => exact leaves_branchIf _ _ _ (Frame.refl.setReg (by simp [regsWritten]))
  | clc => exact .ok (Frame.refl.setFlag (by decide) _)
  | sec => exact .ok (Frame.refl.setFlag (by decide) _)
  | nop => exact .ok .refl
  | other name => exact absurd hk (kind_ne_other i name)

theorem exec_next_frame {i : Instr} {s t : State} (h : exec i s = .next t) :
    Frame (regsWritten i.kind i.mode) (flagsWritten i.kind) (StoresMemory i.kind) s t :=
  (leaves_frame i s).1 t (finish_eq_next.mp (exec_eq_handler i s ▸ h))

theorem exec_fault_frame {i : Instr} {s : State} {f : Fault} (h : exec i s = .fault f) :
    Frame (regsWritten i.kind i.mode) (flagsWritten i.kind) (StoresMemory i.kind) s f.after :=
  (leaves_frame i s).2 f (finish_eq_fault.mp (exec_eq_handler i s ▸ h))

section
variable {k : InstructionKind} {mode : AddressingModeKind}

theorem a_mem_regsWritten : .a ∈ regsWritten k mode ↔ k ∈ [.lda, .adc] ∨ k = .asl ∧ mode = .accumulator := by
  cases k <;> simp [regsWritten]

theorem x_mem_regsWritten : .x ∈ regsWritten k mode ↔ k = .ldx := by
  cases k <;> simp [regsWritten]

theorem sp_mem_regsWritten : .sp ∈ regsWritten k mode ↔ k = .jsr := by
  cases k <;> simp [regsWritten]

theorem pc_mem_regsWritten : .pc ∈ regsWritten k mode ↔ k ∈ [.jmp, .jsr, .bcs, .bcc, .beq, .bne] := by
  cases k <;> simp [regsWritten]

end

/-- Settles O7: SP falls at most, by the effect bound of a step; and SP is a cell that JSR alone writes. -/
theorem spOnlyFallsAndOnlyInJsr : Obligations.SpOnlyFallsAndOnlyInJsr :=
  ⟨fun s => ⟨fun t h => ((step_effect s).1 t h).sp_le, fun e h => ((step_effect s).2 e h).sp_le⟩,
    fun _ _ _ hk h => (exec_next_frame h).reg .sp (mt sp_mem_regsWritten.mp hk),
    fun _ _ _ hk h => (exec_fault_frame h).reg .sp (mt sp_mem_regsWritten.mp hk)⟩

/-- Settles O11: the frame of an instruction, at the flags of its kind. -/
theorem flagsOutsideTheListAreKept : Obligations.FlagsOutsideTheListAreKept := fun _ _ f hf =>
  ⟨fun _ h => (exec_next_frame h).flag f hf, fun _ h => (exec_fault_frame h).flag f hf⟩

/-- Settles O12: the frame of an instruction at each cell and at memory; the latches by its effect bound. -/
theorem registersAreWrittenOnlyByTheirWriters : Obligations.RegistersAreWrittenOnlyByTheirWriters := by
  intro i s t h
  have hf := exec_next_frame h
  have he := exec_next_effect h
  refine ⟨fun hk hi => hf.reg .a fun ha => ?_, fun hk => hf.reg .x (mt x_mem_regsWritten.mp hk),
    fun hk => hf.reg .pc (mt pc_mem_regsWritten.mp hk), fun hk => byteAt_congr (hf.mem hk), he.ir, he.operand⟩
  obtain ha | ⟨ha, hm⟩ := a_mem_regsWritten.mp ha
  · exact hk ha
  · exact hi (eq_aslAccumulator ha hm)

end Sys2Proof.Machine

/-! ### The Register cell, the flags register, the launch -/

namespace Sys2Proof.Machine

/-- Get after set of a value that fits the cell (R17). -/
theorem toNat_reg_setReg {s : State} {r : RegName} {v : Nat} (h : v ≤ 0xFFFF) : ((s.setReg r v).reg r).toNat = v := by
  rw [reg_setReg_same, BitVec.toNat_ofNat, Nat.mod_eq_of_lt (by omega)]

/-- A checked increment that fits adds (R18). -/
theorem regInc_of_le {r : RegName} {n : Nat} {s : State} (h : (s.reg r).toNat + n ≤ 0xFFFF) :
    regInc r n s = .ok (s.setReg r ((s.reg r).toNat + n)) := by
  induction n generalizing s with
  | zero => rw [Nat.add_zero, setReg_self]; rfl
  | succ n ih =>
    have hne : s.reg r ≠ 0xFFFF#16 := fun e => by simp [e] at h
    have hv : ((s.setReg r ((s.reg r).toNat + 1)).reg r).toNat = (s.reg r).toNat + 1 :=
      toNat_reg_setReg (by omega)
    rw [regInc, if_neg hne, ih (by omega), setReg_setReg, hv, Nat.add_right_comm, Nat.add_assoc]

/-- A checked increment that does not fit stops at the top (R18). -/
theorem regInc_of_gt {r : RegName} {n : Nat} {s : State} (h : 0xFFFF < (s.reg r).toNat + n) :
    regInc r n s = .error (.registerOverflow r (s.setReg r 0xFFFF)) := by
  induction n generalizing s with
  | zero => have := (s.reg r).isLt; omega
  | succ n ih =>
    by_cases htop : s.reg r = 0xFFFF#16
    · have hs : s.setReg r 0xFFFF = s := by simpa [htop] using setReg_self s r
      rw [regInc, if_pos htop, hs, raise]
    · have hlt : (s.reg r).toNat < 0xFFFF := by bv_omega
      have hv : ((s.setReg r ((s.reg r).toNat + 1)).reg r).toNat = (s.reg r).toNat + 1 :=
        toNat_reg_setReg (by omega)
      rw [regInc, if_neg htop, ih (by omega), setReg_setReg]

/-- A checked decrement that fits subtracts (R19). -/
theorem regDec_of_le {r : RegName} {n : Nat} {s : State} (h : n ≤ (s.reg r).toNat) :
    regDec r n s = .ok (s.setReg r ((s.reg r).toNat - n)) := by
  induction n generalizing s with
  | zero => rw [Nat.sub_zero, setReg_self]; rfl
  | succ n ih =>
    have hne : s.reg r ≠ 0x0000#16 := fun e => by simp [e] at h
    have hv : ((s.setReg r ((s.reg r).toNat - 1)).reg r).toNat = (s.reg r).toNat - 1 :=
      toNat_reg_setReg (by omega)
    rw [regDec, if_neg hne, ih (by omega), setReg_setReg, hv, Nat.sub_sub, Nat.add_comm 1]

/-- A checked decrement that does not fit stops at 0 (R19). -/
theorem regDec_of_lt {r : RegName} {n : Nat} {s : State} (h : (s.reg r).toNat < n) :
    regDec r n s = .error (.registerUnderflow r (s.setReg r 0)) := by
  induction n generalizing s with
  | zero => omega
  | succ n ih =>
    by_cases hzero : s.reg r = 0x0000#16
    · have hs : s.setReg r 0 = s := by simpa [hzero] using setReg_self s r
      rw [regDec, if_pos hzero, hs, raise]
    · have hpos : 0 < (s.reg r).toNat := by bv_omega
      have hv : ((s.setReg r ((s.reg r).toNat - 1)).reg r).toNat = (s.reg r).toNat - 1 :=
        toNat_reg_setReg (by omega)
      rw [regDec, if_neg hzero, ih (by omega), setReg_setReg]

theorem toNat_lowByte (w : Word) : (lowByte w).toNat = w.toNat % 0x100 := by
  simp [lowByte]

theorem toNat_highByte (w : Word) : (highByte w).toNat = w.toNat / 0x100 := by
  rw [highByte, BitVec.toNat_setWidth, BitVec.toNat_ushiftRight, Nat.shiftRight_eq_div_pow]
  omega

/-- Settles O14, by induction on the count: a unit step that fits, or the cell already at 0xFFFF. -/
theorem regIncIsCheckedAndSaturates : Obligations.RegIncIsCheckedAndSaturates := fun _ _ _ => ⟨regInc_of_le, regInc_of_gt⟩

/-- Settles O15, by induction on the count: a unit step that fits, or the cell already at 0. -/
theorem regDecIsCheckedAndSaturates : Obligations.RegDecIsCheckedAndSaturates := fun _ _ _ => ⟨regDec_of_le, regDec_of_lt⟩

/-- Settles O13, from the get-after-set laws of a cell. -/
theorem registerSetMasksTo16Bits : Obligations.RegisterSetMasksTo16Bits := fun s r v =>
  ⟨by rw [reg_setReg_same, BitVec.toNat_ofNat], fun _ hq => reg_setReg_other s hq v, setReg_p s r v, setReg_mem s r v,
    toNat_lowByte _, toNat_highByte _⟩

/-- Settles O16: the bit positions of R20, and the law of a flag read after a flag write. -/
theorem flagOperationsTouchOneBit : Obligations.FlagOperationsTouchOneBit :=
  ⟨fun _ => ⟨rfl, rfl, rfl, rfl, rfl, rfl, rfl, rfl⟩, fun s f b =>
    ⟨by rw [flag_setFlag, if_pos rfl], fun g hg => by rw [flag_setFlag, if_neg hg], _, setFlag_eq_with_p s f b⟩⟩

/-- Settles O17: each setter writes one flag by a test on the value; the masks of R23 and R24 are a remainder and a quotient. -/
theorem valueImpliesFlagSetters : Obligations.ValueImpliesFlagSetters := by
  intro s v
  have hmask : v &&& 0xFF = v % 0x100 := Nat.and_two_pow_sub_one_eq_mod v 8
  have hbit : v.testBit 7 = decide (v / 0x80 % 2 = 1) := Nat.testBit_eq_decide_div_mod_eq
  refine ⟨?_, fun g hg => by rw [State.setZ, flag_setFlag, if_neg hg], ?_,
    fun g hg => by rw [State.setN, flag_setFlag, if_neg hg], ?_, fun g hg => by rw [State.setCarith, flag_setFlag, if_neg hg]⟩
  · simp [State.setZ, hmask]
  · simp [State.setN, hbit]
  · simp [State.setCarith]

/-- Settles O2: each clause of the invariant is one of the launch constraints. -/
theorem launchMeetsInvariant : Obligations.LaunchMeetsInvariant := by
  intro c l h
  simp only [LaunchParams.wellFormed, Bool.and_eq_true, decide_eq_true_eq] at h
  obtain ⟨⟨⟨⟨⟨ha, hx⟩, hy⟩, hsp⟩, hmem⟩, htable⟩ := h
  exact ⟨ha, hx, hy, hsp, hmem, htable⟩

/-- Settles O3: the default launch parameters are within the launch constraints of the default configuration. -/
theorem resetMeetsInvariant : Obligations.ResetMeetsInvariant := launchMeetsInvariant _ _ (by decide)

end Sys2Proof.Machine

/-! ### What is never read -/

namespace Sys2Proof.Machine

/-- Two states with the same memory, configuration and PC fetch the same instruction: where the step from one completes, it and
the step from the other are the meaning of one instruction in the fetched states (R80 to R83). -/
theorem step_next_congr {s s' t : State} (hm : s'.mem = s.mem) (hc : s'.cfg = s.cfg) (hp : s'.pc = s.pc)
    (h : step s = .next t) :
    ∃ i n op, exec i (s.fetched n op) = .next t ∧ step s' = exec i (s'.fetched n op) := by
  obtain ⟨f, hf, -⟩ | ⟨e, hl, hr, htop, op, ho, -⟩ | ⟨f, w, hf, -⟩ := fetch_cases s
  · simp [step, fetchInstr, hf, bind, Except.bind] at h
  · have hi := fetchInstr_of_fetched hl hr htop ho
    have hi' : fetchInstr s' = _ := fetchInstr_of_fetched (by rwa [byteAt_congr hm, hc, hp])
      (by rwa [canReadFrom_congr hc, hp]) (by rwa [hp]) (by rwa [bytesFrom_congr hm, hp])
    cases hs : selectInstr e.kind e.mode op with
    | ok i =>
      simp only [hs] at hi hi'
      exact ⟨i, _, op, by simpa only [step, hi] using h, by simp only [step, hi']⟩
    | error err => simp [step, hi, hs] at h
  · simp [step, fetchInstr, hf, bind, Except.bind] at h

/-- Settles O10: the fetch stage writes both latches, so the fetched state is the same whatever they held. -/
theorem latchesAreNeverObserved : Obligations.LatchesAreNeverObserved := by
  intro s t b w h
  obtain ⟨i, n, op, ht, hstep⟩ := step_next_congr (s := s) (s' := { s with ir := b, operand := w }) rfl rfl rfl h
  exact hstep.trans ht

/-- `t` is `s` but for bits 2 to 5 of P. -/
def Alike (s t : State) : Prop := ∃ q : Byte, AgreesOutside [2, 3, 4, 5] q s.p ∧ t = { s with p := q }

/-- Where `x` completes, so does `y`, with a related value. -/
def Follows {α : Type} (R : α → α → Prop) (x y : Except Fault α) : Prop := ∀ a, x = .ok a → ∃ b, y = .ok b ∧ R a b

section
variable {α β : Type} {R : α → α → Prop}

theorem Follows.ok {a b : α} (h : R a b) : Follows R (.ok a) (.ok b) := fun _ e => ⟨b, rfl, Except.ok.inj e ▸ h⟩

theorem Follows.raise {e e' : State → Fault} {s s' : State} : Follows R (raise e s) (raise e' s') :=
  fun a h => absurd h (raise_ne_ok e s a)

theorem Follows.bind {S : β → β → Prop} {x y : Except Fault α} {f g : α → Except Fault β} (h : Follows R x y)
    (hf : ∀ a b, R a b → Follows S (f a) (g b)) : Follows S (x >>= f) (y >>= g) := by
  cases x with
  | error _ => exact fun _ e => nomatch e
  | ok a =>
    obtain ⟨b, rfl, hab⟩ := h a rfl
    exact hf a b hab

/-- The same with an equal value in between, as every read answers. -/
theorem Follows.bindEq {S : β → β → Prop} {x y : Except Fault α} {f g : α → Except Fault β} (h : Follows Eq x y)
    (hf : ∀ a, Follows S (f a) (g a)) : Follows S (x >>= f) (y >>= g) :=
  h.bind fun a _ e => e ▸ hf a

end

section
variable {s t : State}

theorem Alike.reg (h : Alike s t) (r : RegName) : t.reg r = s.reg r := by
  obtain ⟨q, -, rfl⟩ := h
  cases r <;> rfl

/-- The flags that instructions read and write agree (R22). -/
theorem Alike.flag (h : Alike s t) {f : Flag} (hf : f.bit ∉ [2, 3, 4, 5]) : t.flag f = s.flag f := by
  obtain ⟨q, hq, rfl⟩ := h
  exact hq f.bit hf

theorem Alike.setReg (h : Alike s t) (r : RegName) (v : Nat) : Alike (s.setReg r v) (t.setReg r v) := by
  obtain ⟨q, hq, rfl⟩ := h
  cases r <;> exact ⟨q, hq, rfl⟩

theorem Alike.setFlag (h : Alike s t) (f : Flag) (b : Bool) : Alike (s.setFlag f b) (t.setFlag f b) := by
  obtain ⟨q, hq, rfl⟩ := h
  refine ⟨(State.setFlag { s with p := q } f b).p, fun k hk => ?_, rfl⟩
  rw [getLsbD_setFlag, getLsbD_setFlag, hq k hk]

theorem Alike.aslFlags (h : Alike s t) (raw : Nat) : Alike (aslFlags raw s) (aslFlags raw t) :=
  ((h.setFlag .c _).setFlag .z _).setFlag .n _

theorem Alike.loadResult (h : Alike s t) (r : RegName) (m : Byte) : Alike (loadResult r m s) (loadResult r m t) :=
  ((h.setReg r _).setFlag .z _).setFlag .n _

theorem Alike.bitResult (h : Alike s t) (m : Byte) : Alike (bitResult m s) (bitResult m t) := by
  have ha : t.a = s.a := h.reg .a
  simp only [Machine.bitResult, setFlag_a, ha]
  exact ((h.setFlag .n _).setFlag .v _).setFlag .z _

/-- ADC reads A and the carry flag, not the decimal flag (R110, D21). -/
theorem Alike.adcResult (h : Alike s t) (m : Byte) : Alike (adcResult m s) (adcResult m t) := by
  have ha : t.a = s.a := h.reg .a
  have hc : t.carryIn = s.carryIn := congrArg Bool.toNat (h.flag (by decide))
  simp only [Machine.adcResult, ha, hc]
  exact ((h.setFlag .v _).aslFlags _).setReg .a _

theorem Alike.memRead (h : Alike s t) (addr : Nat) : Follows Eq (memRead addr s) (memRead addr t) := by
  obtain ⟨q, -, rfl⟩ := h
  intro v hv
  obtain ⟨hr, hv⟩ := memRead_eq_ok.mp hv
  exact ⟨v, memRead_eq_ok.mpr ⟨hr, hv⟩, rfl⟩

theorem Alike.memWrite (h : Alike s t) (addr : Nat) (v : Byte) : Follows Alike (memWrite addr v s) (memWrite addr v t) := by
  obtain ⟨q, hq, rfl⟩ := h
  intro u hu
  obtain ⟨hw, rfl⟩ := memWrite_eq_ok.mp hu
  exact ⟨_, memWrite_eq_ok.mpr ⟨hw, rfl⟩, q, hq, rfl⟩

theorem Alike.readPointer (h : Alike s t) (p : Nat) : Follows Eq (readPointer p s) (readPointer p t) :=
  (h.memRead p).bindEq fun _ => (h.memRead (p + 1)).bindEq fun _ => .ok rfl

theorem Alike.effAddr (h : Alike s t) (k : InstructionKind) (mode : AddressingModeKind) (op : Word) :
    Follows Eq (effAddr k mode op s) (effAddr k mode op t) := by
  have hx : t.x = s.x := h.reg .x
  have hy : t.y = s.y := h.reg .y
  cases mode with
  | zeroPage | absolute => exact .ok rfl
  | zeroPageX | absoluteX => exact .ok (by rw [hx])
  | absoluteY => exact .ok (by rw [hy])
  | indirectX =>
    simp only [Machine.effAddr, indirectXPointer, hx]
    exact h.readPointer _
  | indirectY => exact (h.readPointer _).bindEq fun _ => .ok (by rw [hy])
  | implied | accumulator | immediate | relative => exact .raise

theorem Alike.sourceValue (h : Alike s t) (k : InstructionKind) (mode : AddressingModeKind) (op : Word) :
    Follows Eq (sourceValue k mode op s) (sourceValue k mode op t) := by
  have ha : t.a = s.a := h.reg .a
  cases mode with
  | immediate => exact .ok rfl
  | accumulator =>
    by_cases hk : k = .asl
    · simp only [Machine.sourceValue, hk, if_true, ha]; exact .ok rfl
    · simp only [Machine.sourceValue, hk, if_false]; exact .raise
  | _ => exact (h.effAddr k _ op).bindEq h.memRead

theorem Alike.regInc (h : Alike s t) (r : RegName) (n : Nat) : Follows Alike (regInc r n s) (regInc r n t) := by
  by_cases hn : (s.reg r).toNat + n ≤ 0xFFFF
  · rw [regInc_of_le hn, regInc_of_le (by rwa [h.reg]), h.reg]
    exact .ok (h.setReg r _)
  · rw [regInc_of_gt (by omega)]
    exact fun _ e => nomatch e

theorem Alike.regDec (h : Alike s t) (r : RegName) (n : Nat) : Follows Alike (regDec r n s) (regDec r n t) := by
  by_cases hn : n ≤ (s.reg r).toNat
  · rw [regDec_of_le hn, regDec_of_le (by rwa [h.reg]), h.reg]
    exact .ok (h.setReg r _)
  · rw [regDec_of_lt (by omega)]
    exact fun _ e => nomatch e

theorem Alike.pushByte (h : Alike s t) (v : Byte) : Follows Alike (pushByte v s) (pushByte v t) := by
  have ha : t.stackAddr = s.stackAddr := by obtain ⟨q, -, rfl⟩ := h; rfl
  unfold Machine.pushByte
  rw [ha]
  exact (h.memWrite _ v).bind fun _ _ h' => h'.regDec .sp 1

theorem Alike.jsr (h : Alike s t) (op : Word) : Follows Alike (jsr op s) (jsr op t) := by
  have hpc {s t : State} (h : Alike s t) : t.pc = s.pc := h.reg .pc
  unfold Machine.jsr
  rw [hpc h]
  refine (h.pushByte _).bind fun s' t' h' => ?_
  rw [hpc h']
  exact (h'.pushByte _).bind fun _ _ h'' => .ok (h''.setReg .pc _)

theorem Alike.relativeJump (h : Alike s t) (d : Int) : Follows Alike (relativeJump d s) (relativeJump d t) := by
  unfold Machine.relativeJump
  by_cases hd : 0 ≤ d
  · simpa only [hd, if_true] using h.regInc .pc _
  · simpa only [hd, if_false] using h.regDec .pc _

theorem Alike.branchIf (h : Alike s t) {f : Flag} (hf : f.bit ∉ [2, 3, 4, 5]) (b : Bool) (op : Word) :
    Follows Alike (branchIf f b op s) (branchIf f b op t) := by
  unfold Machine.branchIf
  rw [h.flag hf]
  by_cases hb : s.flag f = b
  · simpa only [hb, if_true] using h.relativeJump _
  · simpa only [hb, if_false] using .ok h

theorem Alike.aslAccumulator (h : Alike s t) : Follows Alike (aslAccumulator s) (aslAccumulator t) :=
  (h.sourceValue .asl .accumulator 0x0000#16).bindEq fun _ => .ok ((h.aslFlags _).setReg .a _)

theorem Alike.aslMemory (h : Alike s t) (mode : AddressingModeKind) (op : Word) :
    Follows Alike (aslMemory mode op s) (aslMemory mode op t) :=
  (h.effAddr .asl mode op).bindEq fun ea => (h.memRead ea).bindEq fun _ => (h.aslFlags _).memWrite ea _

/-- No handler reads bits 2 to 5 of P. -/
theorem Alike.handler (h : Alike s t) (k : InstructionKind) (mode : AddressingModeKind) (op : Word) :
    Follows Alike (handler k mode op s) (handler k mode op t) := by
  have ha : t.a = s.a := h.reg .a
  have hx : t.x = s.x := h.reg .x
  cases k with
  | adc => exact (h.sourceValue .adc mode op).bindEq fun m => .ok (h.adcResult m)
  | bit => exact (h.sourceValue .bit mode op).bindEq fun m => .ok (h.bitResult m)
  | lda => exact (h.sourceValue .lda mode op).bindEq fun m => .ok (h.loadResult .a m)
  | ldx => exact (h.sourceValue .ldx .immediate op).bindEq fun m => .ok (h.loadResult .x m)
  | sta => exact (h.effAddr .sta mode op).bindEq fun ea => ha ▸ h.memWrite ea _
  | stx => exact (h.effAddr .stx mode op).bindEq fun ea => hx ▸ h.memWrite ea _
  | asl =>
    by_cases hm : mode = .accumulator
    · simpa only [Machine.handler, hm, if_true] using h.aslAccumulator
    · simpa only [Machine.handler, hm, if_false] using h.aslMemory mode op
  | jmp =>
    by_cases hm : mode = .absolute
    · simpa only [Machine.handler, hm, if_true] using .ok (h.setReg .pc _)
    · simpa only [Machine.handler, hm, if_false] using h.relativeJump _
  | jsr => exact h.jsr op
  | bcc | bcs | beq | bne => exact h.branchIf (by decide) _ op
  | clc | sec => exact .ok (h.setFlag .c _)
  | nop => exact .ok h
  | other name => exact .raise

theorem Alike.exec_next (h : Alike s t) {i : Instr} {s' : State} (he : exec i s = .next s') :
    ∃ t', exec i t = .next t' ∧ Alike s' t' := by
  obtain ⟨t', ht, h'⟩ := h.handler i.kind i.mode i.operand s' (finish_eq_next.mp (exec_eq_handler i s ▸ he))
  exact ⟨t', by rw [exec_eq_handler, ht, finish_ok], h'⟩

end

/-- Settles O9: both steps run one instruction, in fetched states that differ only in bits 2 to 5 of P; no handler reads those
bits, and none writes them. -/
theorem reservedFlagsAreNeverRead : Obligations.ReservedFlagsAreNeverRead := by
  intro s t q hq h
  obtain ⟨i, n, op, ht, hstep⟩ := step_next_congr (s := s) (s' := { s with p := q }) rfl rfl rfl h
  have hfetched : Alike (s.fetched n op) (State.fetched { s with p := q } n op) := ⟨q, hq, rfl⟩
  obtain ⟨u, hu, r, hr, rfl⟩ := hfetched.exec_next ht
  exact ⟨r, hstep.trans hu, hr, (exec_next_effect hu).flags⟩

end Sys2Proof.Machine

/-! SUPPORT. Proofs of the statements of `20_memory.md`: the port's two outcomes, the canonical form of memory, and a store seen
by the next fetch. -/

/-! ### The memory port -/

namespace Sys2Proof.Machine

section
variable {s : State} {addr : Nat}

/-- A predicate of the platform is false exactly inside the ranges that are listed for it (log entry 17). -/
theorem inRanges_eq_true {rs : List AddrRange} : inRanges rs addr = true ↔ ∃ r ∈ rs, r.lo ≤ addr ∧ addr ≤ r.hi := by
  simp only [inRanges, List.any_eq_true, decide_eq_true_eq]

theorem inRanges_eq_false {rs : List AddrRange} : inRanges rs addr = false ↔ ∀ r ∈ rs, ¬(r.lo ≤ addr ∧ addr ≤ r.hi) := by
  simp only [inRanges, List.any_eq_false, decide_eq_true_eq]

theorem canRead_eq_true : s.canRead addr = true ↔ addr ≤ 0xFFFF ∧ inRanges s.cfg.unreadable addr = false := by
  simp [State.canRead]

theorem canRead_eq_false : s.canRead addr = false ↔ 0xFFFF < addr ∨ inRanges s.cfg.unreadable addr = true := by
  simp [State.canRead, imp_iff_not_or]

theorem canWrite_eq_true : s.canWrite addr = true ↔ addr ≤ 0xFFFF ∧ inRanges s.cfg.unwritable addr = false := by
  simp [State.canWrite]

theorem canWrite_eq_false : s.canWrite addr = false ↔ 0xFFFF < addr ∨ inRanges s.cfg.unwritable addr = true := by
  simp [State.canWrite, imp_iff_not_or]

/-- A byte written to canonical memory is the one byte that changes (R46). -/
theorem storesByte_write (h : s.mem.wf = true) (addr : Nat) (v : Byte) :
    StoresByte s { s with mem := s.mem.write addr v } addr v :=
  ⟨by rw [byteAt_with_mem, read_write h, if_pos rfl], fun b hb => by rw [byteAt_with_mem, read_write h, if_neg hb]; rfl⟩

end

/-- Settles O18: the port accepts an address exactly where the premise says, and a read answers or refuses accordingly. -/
theorem memReadAnswersOrRefuses : Obligations.MemReadAnswersOrRefuses := fun _ _ =>
  ⟨fun hle hout => memRead_eq_ok.mpr ⟨canRead_eq_true.mpr ⟨hle, inRanges_eq_false.mpr hout⟩, rfl⟩,
    fun h => memRead_eq_error.mpr ⟨canRead_eq_false.mpr (h.imp_right inRanges_eq_true.mpr), rfl⟩⟩

/-- Settles O19: the port accepts an address exactly where the premise says; an accepted write is a write to canonical memory. -/
theorem memWriteStoresOneByteOrRefuses : Obligations.MemWriteStoresOneByteOrRefuses := fun addr v _ =>
  ⟨fun hwf hle hout => ⟨_, memWrite_eq_ok.mpr ⟨canWrite_eq_true.mpr ⟨hle, inRanges_eq_false.mpr hout⟩, rfl⟩, rfl,
      storesByte_write hwf addr v⟩,
    fun h => memWrite_eq_error.mpr ⟨canWrite_eq_false.mpr (h.imp_right inRanges_eq_true.mpr), rfl⟩⟩

end Sys2Proof.Machine

/-! ### The canonical form -/

namespace Sys2Proof.Machine

section
variable {m n : Memory} {lo k a : Nat} {v : Byte}

theorem read_head : Memory.read ((k, v) :: m) k = v := if_pos rfl

theorem read_tail (h : a ≠ k) : Memory.read ((k, v) :: m) a = m.read a := if_neg h

theorem wfFrom_cell_iff :
    Memory.wfFrom lo ((k, v) :: m) = true ↔ lo ≤ k ∧ k ≤ 0xFFFF ∧ v ≠ Memory.unlisted ∧ m.wfFrom (k + 1) = true := by
  simp only [Memory.wfFrom, Bool.and_eq_true, decide_eq_true_eq, and_assoc]

/-- A canonical memory is canonical from its first address on. -/
theorem wfFrom_head (h : Memory.wfFrom lo ((k, v) :: m) = true) : Memory.wfFrom k ((k, v) :: m) = true :=
  wfFrom_cell_iff.mpr ⟨Nat.le_refl k, (wfFrom_cell_iff.mp h).2⟩

/-- A canonical memory that holds what the first cell of another one holds begins no later: the cell's byte is not that of an
unlisted address. -/
theorem first_le_of_read_eq (hm : Memory.wfFrom lo ((k, v) :: m) = true) (hn : n.wfFrom lo = true)
    (h : Memory.read ((k, v) :: m) k = n.read k) : ∃ j w n', n = (j, w) :: n' ∧ j ≤ k := by
  obtain ⟨-, -, hv, -⟩ := wfFrom_cell_iff.mp hm
  rw [read_head] at h
  cases n with
  | nil => exact absurd h hv
  | cons c n' =>
    obtain ⟨j, w⟩ := c
    refine ⟨j, w, n', rfl, Nat.le_of_not_lt fun hlt => hv ?_⟩
    rw [h, read_of_lt (wfFrom_head hn) hlt]

/-- Canonical memories that read the same everywhere are the same list: each begins no later than the other, the first cells
agree, and behind them both lists read as unlisted up to the first address. -/
theorem eq_of_read_eq (hm : m.wfFrom lo = true) (hn : n.wfFrom lo = true)
    (h : ∀ a, a ≤ 0xFFFF → m.read a = n.read a) : m = n := by
  induction m generalizing lo n with
  | nil =>
    cases n with
    | nil => rfl
    | cons c n =>
      obtain ⟨-, hk, -⟩ := wfFrom_cell_iff.mp hn
      obtain ⟨_, _, _, e, -⟩ := first_le_of_read_eq hn hm (h _ hk).symm
      cases e
  | cons c m ih =>
    obtain ⟨k, v⟩ := c
    obtain ⟨-, hk, -, hm'⟩ := wfFrom_cell_iff.mp hm
    obtain ⟨j, w, n, rfl, hjk⟩ := first_le_of_read_eq hm hn (h k hk)
    obtain ⟨-, hj, -, hn'⟩ := wfFrom_cell_iff.mp hn
    obtain ⟨_, _, _, e, hkj⟩ := first_le_of_read_eq hn hm (h j hj).symm
    cases e
    obtain rfl := Nat.le_antisymm hjk hkj
    obtain rfl : v = w := by simpa only [read_head] using h j hj
    refine congrArg _ (ih hm' hn' fun a ha => ?_)
    by_cases haj : a = j
    · rw [haj, read_of_lt hm' j.lt_succ_self, read_of_lt hn' j.lt_succ_self]
    · simpa only [read_tail haj] using h a ha

end

/-- Settles O20, by induction on the cells of the one memory, over the address both are canonical from. -/
theorem equalContentsAreEqualMemories : Obligations.EqualContentsAreEqualMemories := fun _ _ => eq_of_read_eq

end Sys2Proof.Machine

/-! ### A store and the fetch after it -/

namespace Sys2Proof.Machine

section
variable {i : Instr} {s t : State} {ea : Nat} {bs rest : List Byte} {table : OpTable}

/-- STA stores the low byte of A at its effective address (R122). -/
theorem exec_sta (hk : i.kind = .sta) (ha : instrAddr i s = .ok ea) : exec i s = finish (memWrite ea (lowByte s.a) s) := by
  rw [instrAddr, hk] at ha
  rw [exec_of_sta hk, sta, ha]
  rfl

/-- STX stores the low byte of X at its effective address (R123). -/
theorem exec_stx (hk : i.kind = .stx) (ha : instrAddr i s = .ok ea) : exec i s = finish (memWrite ea (lowByte s.x) s) := by
  rw [instrAddr, hk] at ha
  rw [exec_of_stx hk, stx, ha]
  rfl

/-- A byte write that completes left its byte at its address (R46). -/
theorem byteAt_of_memWrite {v : Byte} (hwf : s.mem.wf = true) (h : finish (memWrite ea v s) = .next t) : t.byteAt ea = v := by
  obtain ⟨-, rfl⟩ := memWrite_eq_ok.mp (finish_eq_next.mp h)
  exact (storesByte_write hwf ea v).1

/-- A decoded instruction has taken as many bytes as its length (R61). -/
theorem length_of_decode (h : decode table bs = .ok (i, rest)) : bs.length = i.length + rest.length := by
  obtain ⟨b, bs', e, op, rfl, -, ho, hs⟩ := decode_eq_ok h
  obtain ⟨-, hmode, -⟩ := selectInstr_eq_ok hs
  obtain ⟨rfl, -⟩ := operandBytes_takeOperand (operandLength_le e.mode) ho
  have hlen : (operandBytes (operandLength e.mode) op).length = operandLength e.mode := by cases e.mode <;> rfl
  rw [List.length_cons, List.length_append, hlen, Instr.length, hmode]
  omega

/-- An instruction of one byte has the raw operand 0 (R62). -/
theorem operand_of_length_one (h : i.length = 1) : i.operand = 0x0000#16 := by
  obtain ⟨-, -, hop⟩ := selectInstr_eq_ok (selectInstr_self i)
  have h0 : operandLength i.mode = 0 := Nat.add_left_cancel h
  rwa [h0] at hop

/-- An unpopulated opcode byte stops the step with nothing changed (R82, R152). -/
theorem step_of_unpopulated (hr : s.canRead s.pc.toNat = true) (hl : s.cfg.opTable.lookup (s.byteAt s.pc.toNat) = none) :
    step s = .fault (.unknownOperation (s.byteAt s.pc.toNat) s) := by
  simp only [step, fetchInstr, fetch, memRead, hr, if_true, bind, Except.bind, hl, raise]

/-- Where the bytes at PC decode to an instruction and PC can pass it, the step is the instruction's meaning in the fetched
state (R80, R83). -/
theorem step_of_decode (hr : s.canReadFrom s.pc.toNat i.length = true) (hp : s.pc.toNat + i.length ≤ 0xFFFF)
    (hd : decode s.cfg.opTable (s.bytesFrom s.pc.toNat i.length) = .ok (i, [])) :
    step s = exec i (s.fetched (operandLength i.mode) i.operand) := by
  obtain ⟨b, bs, e, op, hbs, hl, ho, hs⟩ := decode_eq_ok hd
  obtain ⟨-, hmode, hop⟩ := selectInstr_eq_ok hs
  rw [← (operandBytes_takeOperand (operandLength_le e.mode) ho).2] at hop
  rw [Instr.length, hmode] at hr hp hbs
  rw [Nat.add_comm 1, State.bytesFrom, List.cons.injEq] at hbs
  obtain ⟨rfl, rfl⟩ := hbs
  simp only [step, fetchInstr_of_fetched hl hr (by omega) ho, hs, hmode, hop]

end

/-- Settles O21: the completed store left its byte where PC stands, so the fetch of the next step reads that byte. -/
theorem storeIsSeenByTheNextFetch : Obligations.StoreIsSeenByTheNextFetch := by
  intro i s t v hwf hstore hexec haddr hr
  have hv : t.byteAt t.pc.toNat = v := by
    obtain ⟨hk, rfl⟩ | ⟨hk, rfl⟩ := hstore
    · exact byteAt_of_memWrite hwf (exec_sta hk haddr ▸ hexec)
    · exact byteAt_of_memWrite hwf (exec_stx hk haddr ▸ hexec)
  refine ⟨fun hl => ?_, fun j hd hp => ?_⟩
  · rw [step_of_unpopulated hr (hv ▸ hl), hv]
  · have hlen : j.length = 1 := (length_of_decode hd).symm
    have h0 : operandLength j.mode = 0 := Nat.add_left_cancel hlen
    have hbytes : t.bytesFrom t.pc.toNat j.length = [v] := by rw [hlen, ← hv]; rfl
    have hread : t.canReadFrom t.pc.toNat j.length = true := by rw [hlen]; simpa only [State.canReadFrom, Bool.and_true] using hr
    rw [step_of_decode hread (by omega) (hbytes ▸ hd), fetched_eq, hv, h0, operand_of_length_one hlen]

end Sys2Proof.Machine

/-! SUPPORT. Proofs of the statements of `30_encoding.md`: the operand bytes, the two directions of the encoding, the default
table, and the decoder build. -/

/-! ### Encoder and decoder -/

namespace Sys2Proof.Machine

section
variable {t : OpTable} {b : Byte} {e : OperationCode} {i : Instr} {bs rest : List Byte}

/-- The encoding of an instruction: the byte that selects its pair, then its operand bytes (R60, R64). -/
theorem encode_eq_some : encode t i = some bs ↔
    ∃ b, t.byteOf i.kind i.mode = some b ∧ bs = b :: operandBytes (operandLength i.mode) i.operand := by
  simp only [encode, Option.map_eq_some_iff, eq_comm (b := bs)]

/-- An instruction has no encoding exactly when no slot holds its pair (R64). -/
theorem encode_eq_none : encode t i = none ↔ t.byteOf i.kind i.mode = none := Option.map_eq_none_iff

/-- An encoding has the length of its format (R60, R61). -/
theorem length_of_encode (h : encode t i = some bs) : bs.length = i.length := by
  obtain ⟨b, -, rfl⟩ := encode_eq_some.mp h
  rw [Instr.length, List.length_cons, Nat.add_comm]
  cases i.mode <;> rfl

/-- What a lookup finds is an entry of the table. -/
theorem mem_of_lookup (h : t.lookup b = some e) : e ∈ t := by
  induction t with
  | nil => nomatch h
  | cons f t ih =>
    rw [OpTable.lookup] at h
    split at h
    · exact Option.some.inj h ▸ List.mem_cons_self
    · exact List.mem_cons_of_mem f (ih h)

/-- Where every entry of a table is the one its pair is encoded by, the table encodes whatever it decodes, back to the bytes the
decoder took (R62, R63). -/
theorem encode_of_decode (ht : ∀ e ∈ t, t.byteOf e.kind e.mode = some e.rawByte) (h : decode t bs = .ok (i, rest)) :
    ∃ enc, encode t i = some enc ∧ bs = enc ++ rest := by
  obtain ⟨b, bs', e, op, rfl, hl, ho, hs⟩ := decode_eq_ok h
  obtain ⟨rfl, hcut⟩ := operandBytes_takeOperand (operandLength_le e.mode) ho
  obtain ⟨hk, hm, hop⟩ := selectInstr_eq_ok hs
  rw [← hcut] at hop
  have hb : t.byteOf i.kind i.mode = some b := by rw [hk, hm, ht e (mem_of_lookup hl), lookup_rawByte hl]
  exact ⟨_, encode_eq_some.mpr ⟨b, hb, rfl⟩, by rw [hm, hop, List.cons_append]⟩

end

/-- Settles O25: the first byte is a slot that holds the instruction's pair, the operand bytes assemble to its raw operand, and
pair and operand select the instruction. -/
theorem decodeOfEncode : Obligations.DecodeOfEncode := by
  intro t i bs rest ht henc
  obtain ⟨b, hb, rfl⟩ := encode_eq_some.mp henc
  exact decode_cons (lookup_byteOf ht hb) (takeOperand_operandBytes i rest) (selectInstr_self i)

/-- No two slots of the default table hold one pair (R64), so the byte found for an entry's pair is the entry's own. -/
theorem byteOf_of_mem_defaultTable : ∀ e ∈ defaultTable, defaultTable.byteOf e.kind e.mode = some e.rawByte := by decide

/-- Settles O27: in the default table every entry is the one its pair is encoded by. -/
theorem encodeOfDecode : Obligations.EncodeOfDecode := fun _ _ _ => encode_of_decode byteOf_of_mem_defaultTable

/-- Settles O22: the lengths are the table of R61; the one operand byte keeps its value when widened, and two bytes make a word
of the value R62 gives. -/
theorem operandLengthAndAssembly : Obligations.OperandLengthAndAssembly :=
  ⟨by decide, fun _ => rfl, fun b1 _ => ⟨b1.setWidth 16, rfl, BitVec.toNat_setWidth_of_le (by decide)⟩,
    fun b1 b2 _ => ⟨wordOfBytes b1 b2, rfl, toNat_wordOfBytes b1 b2⟩⟩

/-- Settles O23, by running the decoder. -/
theorem writtenOutBytesDecode : Obligations.WrittenOutBytesDecode := by
  unfold Obligations.WrittenOutBytesDecode
  decide

/-- No byte of the default table selects (JMP, Relative) (C7). -/
theorem byteOf_defaultTable_jmp_relative : defaultTable.byteOf .jmp .relative = none := rfl

/-- Settles O24, by running over the 42 entries and the 256 slots. -/
theorem defaultTableShape : Obligations.DefaultTableShape :=
  ⟨by decide, by decide, byteOf_defaultTable_jmp_relative⟩

/-- Every instruction but (JMP, Relative) is well-formed under the default table: a byte of it selects the pair (R64). -/
theorem wellFormed_defaultTable {i : Instr} (h : ¬(i.kind = .jmp ∧ i.mode = .relative)) : i.wellFormed defaultTable = true := by
  cases i with
  | jmpRelative => exact absurd ⟨rfl, rfl⟩ h
  | _ => rfl

/-- Settles O26: no slot holds (JMP, Relative), some slot holds every other pair, and an encoding has its format's length. -/
theorem defaultTableEncodesEveryInstruction : Obligations.DefaultTableEncodesEveryInstruction := by
  refine fun i => ⟨fun ⟨hk, hm⟩ => encode_eq_none.mpr (by rw [hk, hm, byteOf_defaultTable_jmp_relative]), fun h => ?_⟩
  obtain ⟨b, hb⟩ := Option.isSome_iff_exists.mp (wellFormed_defaultTable h)
  have henc := encode_eq_some.mpr ⟨b, hb, rfl⟩
  exact ⟨_, henc, length_of_encode henc⟩

end Sys2Proof.Machine

/-! ### The decoder build -/

namespace Sys2Proof.Machine

section
variable {t t' : OpTable} {e : OperationCode} {lo : Nat} {accepted : List String} {lines : List (List Char)}

theorem wellFormedFrom_cons : OpTable.wellFormedFrom lo (e :: t) = true ↔
    lo ≤ e.rawByte.toNat ∧ t.wellFormedFrom (e.rawByte.toNat + 1) = true := by
  rw [OpTable.wellFormedFrom, Bool.and_eq_true, decide_eq_true_eq]

/-- No entry of a well-formed table stands below its first slot. -/
theorem le_rawByte_of_mem (h : t.wellFormedFrom lo = true) (he : e ∈ t) : lo ≤ e.rawByte.toNat := by
  induction t generalizing lo with
  | nil => nomatch he
  | cons f t ih =>
    obtain ⟨hf, ht⟩ := wellFormedFrom_cons.mp h
    cases he with
    | head => exact hf
    | tail _ he =>
      have hfe := ih ht he
      omega

/-- A well-formed table has one entry per byte (R65 a). -/
theorem nodup_rawByte (h : t.wellFormedFrom lo = true) : (t.map OperationCode.rawByte).Nodup := by
  induction t generalizing lo with
  | nil => exact .nil
  | cons f t ih =>
    obtain ⟨-, ht⟩ := wellFormedFrom_cons.mp h
    refine List.nodup_cons.mpr ⟨fun hmem => ?_, ih ht⟩
    obtain ⟨e, he, hef⟩ := List.mem_map.mp hmem
    exact Nat.not_succ_le_self _ (hef ▸ le_rawByte_of_mem ht he)

/-- Where an entry is put: its slot lies before the first populated one, or behind it; the first one itself is taken (R65 a). -/
theorem insertSlot_cons {f : OperationCode} (h : insertSlot e (f :: t) = some t') :
    (e.rawByte.toNat < f.rawByte.toNat ∧ t' = e :: f :: t) ∨
    (f.rawByte.toNat < e.rawByte.toNat ∧ ∃ u, insertSlot e t = some u ∧ t' = f :: u) := by
  rw [insertSlot] at h
  split at h
  · exact .inl ⟨‹_›, (Option.some.inj h).symm⟩
  · split at h
    · nomatch h
    · next hlt hne =>
      obtain ⟨u, hu, rfl⟩ := Option.map_eq_some_iff.mp h
      have hne : e.rawByte.toNat ≠ f.rawByte.toNat := fun h => hne (BitVec.eq_of_toNat_eq h)
      exact .inr ⟨by omega, u, hu, rfl⟩

/-- Filling a slot keeps the slots by rising raw byte (R65). -/
theorem wellFormedFrom_insertSlot (h : t.wellFormedFrom lo = true) (hlo : lo ≤ e.rawByte.toNat)
    (hi : insertSlot e t = some t') : t'.wellFormedFrom lo = true := by
  induction t generalizing lo t' with
  | nil =>
    obtain rfl := Option.some.inj hi
    exact wellFormedFrom_cons.mpr ⟨hlo, rfl⟩
  | cons f t ih =>
    obtain ⟨hf, ht⟩ := wellFormedFrom_cons.mp h
    obtain ⟨hlt, rfl⟩ | ⟨hlt, u, hu, rfl⟩ := insertSlot_cons hi
    · exact wellFormedFrom_cons.mpr ⟨hlo, wellFormedFrom_cons.mpr ⟨hlt, ht⟩⟩
    · exact wellFormedFrom_cons.mpr ⟨hf, ih ht hlt hu⟩

/-- Filling a slot adds the one entry. -/
theorem insertSlot_perm (hi : insertSlot e t = some t') : t'.Perm (e :: t) := by
  induction t generalizing t' with
  | nil => exact .of_eq (Option.some.inj hi).symm
  | cons f t ih =>
    obtain ⟨-, rfl⟩ | ⟨-, u, hu, rfl⟩ := insertSlot_cons hi
    · exact .refl _
    · exact ((ih hu).cons f).trans (.swap e f t)

/-- What the scan does with a line: it reports a problem and keeps the slots, or it fills one slot (R69). -/
theorem scanEntries_cons (n : Nat) (line : List Char) (t : OpTable) (ps : List (Nat × EntryProblem)) :
    (∃ p, scanEntries accepted n (line :: lines) (t, ps) = scanEntries accepted (n + 1) lines (t, ps ++ [(n, p)])) ∨
    (∃ c t', parseEntry accepted line = .ok c ∧ insertSlot c t = some t' ∧
      scanEntries accepted n (line :: lines) (t, ps) = scanEntries accepted (n + 1) lines (t', ps)) := by
  rw [scanEntries]
  split
  · next p hp => exact .inl ⟨p, rfl⟩
  · next c hc =>
    split
    · exact .inl ⟨.duplicateKey, rfl⟩
    · next t' ht' => exact .inr ⟨c, t', hc, ht', rfl⟩

/-- A scan that ends without a problem began without one, has parsed every line, and has added the entries it parsed. -/
theorem scanEntries_clean {n : Nat} {ps : List (Nat × EntryProblem)} (h : scanEntries accepted n lines (t, ps) = (t', [])) :
    ps = [] ∧ ∃ cs, lines.map (parseEntry accepted) = cs.map .ok ∧ t'.Perm (cs ++ t) := by
  induction lines generalizing n t ps with
  | nil =>
    obtain ⟨rfl, rfl⟩ := Prod.mk.inj h
    exact ⟨rfl, [], rfl, .refl _⟩
  | cons line lines ih =>
    obtain ⟨p, hp⟩ | ⟨c, u, hc, hu, hs⟩ := scanEntries_cons n line t ps
    · exact absurd (ih (hp ▸ h)).1 (List.append_ne_nil_of_right_ne_nil ps (List.cons_ne_nil _ _))
    · obtain ⟨hps, cs, hcs, hperm⟩ := ih (hs ▸ h)
      refine ⟨hps, c :: cs, by rw [List.map_cons, List.map_cons, hc, hcs], ?_⟩
      exact hperm.trans (((insertSlot_perm hu).append_left cs).trans List.perm_middle)

/-- The scan keeps the slots by rising raw byte, whatever lines it meets (R65). -/
theorem wellFormed_scanEntries {n : Nat} {ps ps' : List (Nat × EntryProblem)} (ht : t.wellFormed = true)
    (h : scanEntries accepted n lines (t, ps) = (t', ps')) : t'.wellFormed = true := by
  induction lines generalizing n t ps with
  | nil => exact (Prod.mk.inj h).1 ▸ ht
  | cons line lines ih =>
    obtain ⟨p, hp⟩ | ⟨c, u, -, hu, hs⟩ := scanEntries_cons n line t ps
    · exact ih ht (hp ▸ h)
    · exact ih (wellFormedFrom_insertSlot ht (Nat.zero_le _) hu) (hs ▸ h)

/-- The build of a readable resource answers the table of a scan without a problem, or reports the problems (R69). -/
theorem buildTable_cases (accepted : List String) (lines : List (List Char)) :
    (∃ t, buildTable accepted (some lines) = .ok t ∧ scanEntries accepted 0 lines ([], []) = (t, [])) ∨
    (∃ problems, buildTable accepted (some lines) = .error (.malformed problems)) := by
  rw [buildTable]
  split
  · next t ht => exact .inl ⟨t, rfl, ht⟩
  · next ps _ _ => exact .inr ⟨ps, rfl⟩

/-- A readable resource that builds a table, and what it takes: every line parses, and the table is well-formed and holds exactly
the entries of the lines (R65, R69). -/
theorem buildTable_eq_ok (h : buildTable accepted (some lines) = .ok t) :
    t.wellFormed = true ∧ ∃ cs, lines.map (parseEntry accepted) = cs.map .ok ∧ t.Perm cs := by
  obtain ⟨t', ht, hs⟩ | ⟨ps, hps⟩ := buildTable_cases accepted lines
  · obtain rfl := Except.ok.inj (h.symm.trans ht)
    obtain ⟨-, cs, hcs, hperm⟩ := scanEntries_clean hs
    exact ⟨wellFormed_scanEntries rfl hs, cs, hcs, by rwa [List.append_nil] at hperm⟩
  · rw [h] at hps
    nomatch hps

/-- A table is built only where every line parses. -/
theorem parseEntry_of_buildTable (h : buildTable accepted (some lines) = .ok t) {line : List Char} (hmem : line ∈ lines) :
    ∃ c, parseEntry accepted line = .ok c := by
  obtain ⟨-, cs, hcs, -⟩ := buildTable_eq_ok h
  obtain ⟨c, -, hc⟩ := List.mem_map.mp (hcs ▸ List.mem_map_of_mem hmem)
  exact ⟨c, hc.symm⟩

/-- A table is built only where two lines have two keys: their entries both stand in it, and it has one entry per byte. -/
theorem rawByte_ne_of_buildTable (h : buildTable accepted (some lines) = .ok t) {line line' : List Char} {c c' : OperationCode}
    (hlines : [line, line'].Sublist lines) (hc : parseEntry accepted line = .ok c) (hc' : parseEntry accepted line' = .ok c') :
    c.rawByte ≠ c'.rawByte := by
  obtain ⟨hwf, cs, hcs, hperm⟩ := buildTable_eq_ok h
  have hparsed : ([c, c'].map Except.ok).Sublist (cs.map (Except.ok (ε := EntryProblem))) := by
    simpa only [hcs, List.map_cons, List.map_nil, hc, hc'] using hlines.map (parseEntry accepted)
  obtain ⟨l, hl, hmap⟩ := List.sublist_map_iff.mp hparsed
  obtain rfl : [c, c'] = l := List.map_injective_iff.mpr (fun _ _ => Except.ok.inj) hmap
  have hnodup : [c.rawByte, c'.rawByte].Nodup := ((hperm.map _).nodup_iff.mp (nodup_rawByte hwf)).sublist (hl.map _)
  simpa using hnodup

/-- Where no table is built, the build reports the problems of the lines. -/
theorem malformed_of_ne_ok (h : ∀ t, buildTable accepted (some lines) ≠ .ok t) :
    ∃ problems, buildTable accepted (some lines) = .error (.malformed problems) :=
  (buildTable_cases accepted lines).resolve_left fun ⟨t, ht, _⟩ => h t ht

end

/-- Settles O56: an unreadable resource builds nothing, and the scan of the lines keeps the slots in rising order. -/
theorem builtTablesAreWellFormed : Obligations.BuiltTablesAreWellFormed := by
  intro accepted resource t h
  cases resource with
  | none => nomatch h
  | some lines => exact (buildTable_eq_ok h).1

/-- Settles O57: a table that is built holds the entry of every line, each under a byte of its own. -/
theorem malformedResourceBuildsNoTable : Obligations.MalformedResourceBuildsNoTable := by
  refine ⟨fun _ => rfl, fun accepted before after line e he => malformed_of_ne_ok fun t ht => ?_,
    fun accepted before between after line line' c c' hc hc' hkey => malformed_of_ne_ok fun t ht => ?_⟩
  · obtain ⟨c, hc⟩ := parseEntry_of_buildTable ht (line := line) (by simp)
    nomatch he.symm.trans hc
  · exact rawByte_ne_of_buildTable ht (by simp) hc hc' hkey

end Sys2Proof.Machine

/-! SUPPORT. Proofs of the statements of `40_step_and_addressing.md`: the supported pairs, where the fetch stage stops, what a step
runs, and the resolver. -/

/-! ### The supported pairs -/

namespace Sys2Proof.Machine

section
variable {k : InstructionKind} {m : AddressingModeKind} {op : Word}

/-- The table of R85 has one row for each kind that has a handler: the modes the kind accepts. -/
theorem mem_supportedPairs {ms : List AddressingModeKind} :
    (k, ms) ∈ supportedPairs ↔ (∀ name, k ≠ .other name) ∧ ms = supported k := by
  cases k <;> simp [supportedPairs, supported]

/-- A pair has an instruction exactly when the mode is one its kind accepts: both tables, row by row (R85). -/
theorem isSome_instrOf : (instrOf k m op).isSome = true ↔ m ∈ supported k := by
  cases k <;> cases m <;> simp [instrOf, supported]

theorem selectInstr_of_some {i : Instr} (h : instrOf k m op = some i) : selectInstr k m op = .ok i := by
  cases k with
  | other name => nomatch h
  | _ => simp only [selectInstr, h]

theorem selectInstr_of_none (hk : ∀ name, k ≠ .other name) (h : instrOf k m op = none) :
    selectInstr k m op = .error (.unsupportedAddressingMode k m) := by
  cases k with
  | other name => exact absurd rfl (hk name)
  | _ => simp only [selectInstr, h]

end

/-- Settles O28: the rows of R85 are the modes for which a pair has an instruction, and a selected instruction has its pair. -/
theorem supportedPairsAreThe43 : Obligations.SupportedPairsAreThe43 := by
  refine fun k m op => ⟨fun ⟨ms, hrow, hm⟩ => ?_, fun name hk => by rw [hk]; rfl, fun hk hm => ?_⟩
  · obtain ⟨-, rfl⟩ := mem_supportedPairs.mp hrow
    obtain ⟨i, hi⟩ := Option.isSome_iff_exists.mp (isSome_instrOf.mpr hm)
    have hs := selectInstr_of_some (op := op) hi
    obtain ⟨hkind, hmode, -⟩ := selectInstr_eq_ok hs
    exact ⟨i, hs, hkind, hmode⟩
  · have hout : m ∉ supported k := hm _ (mem_supportedPairs.mpr ⟨hk, rfl⟩)
    exact selectInstr_of_none hk (Option.not_isSome_iff_eq_none.mp (mt isSome_instrOf.mp hout))

end Sys2Proof.Machine

/-! ### Where the fetch stage stops -/

namespace Sys2Proof.Machine

section
variable {s : State} {e : OperationCode} {k n : Nat} {f : Fault}

/-- A 16-bit address is its own value in a cell. -/
theorem toNat_ofNat_address (h : n ≤ 0xFFFF) : (BitVec.ofNat 16 n).toNat = n := by
  rw [BitVec.toNat_ofNat, Nat.mod_eq_of_lt (Nat.lt_succ_of_le h)]

/-- Bytes can be read when each of their addresses can. -/
theorem canReadFrom_of_forall {addr : Nat} (h : ∀ a, addr ≤ a → a < addr + n → s.canRead a = true) :
    s.canReadFrom addr n = true := by
  induction n generalizing addr with
  | zero => rfl
  | succ n ih =>
    rw [State.canReadFrom, h addr (Nat.le_refl _) (by omega), Bool.true_and]
    exact ih fun a hle hlt => h a (by omega) (by omega)

/-- The operand fetch stops at the first operand byte whose fetch stops (R83). -/
theorem fetchOperand_of_error (hn : n ≤ 2) (hk : k < n) (hr : s.canReadFrom s.pc.toNat k = true)
    (hp : s.pc.toNat + k ≤ 0xFFFF) (hf : fetchByte { s with pc := BitVec.ofNat 16 (s.pc.toNat + k) } = .error f) :
    fetchOperand n s = .error f := by
  cases k with
  | zero =>
    have h0 : fetchByte s = .error f := by simpa using hf
    match n, hn with
    | 1, _ | 2, _ => simp only [fetchOperand, h0, bind, Except.bind]
  | succ k =>
    obtain ⟨rfl, rfl⟩ : k = 0 ∧ n = 2 := by omega
    have h0 := fetchByte_of_ok (s := s) (by simpa only [State.canReadFrom, Bool.and_true] using hr) hp
    simp only [fetchOperand, h0, hf, bind, Except.bind]

/-- The step that cannot read its opcode byte stops with nothing changed (R81, R155). -/
theorem step_of_refused (hr : s.canRead s.pc.toNat = false) : step s = .fault (.readOutOfMemory s.pc.toNat s) := by
  simp only [step, fetchInstr, fetch, memRead_eq_error.mpr ⟨hr, rfl⟩, bind, Except.bind]

/-- PC cannot pass an opcode byte at 0xFFFF (R83, R157). -/
theorem step_of_top (hl : s.cfg.opTable.lookup (s.byteAt s.pc.toNat) = some e) (hr : s.canRead s.pc.toNat = true)
    (hp : s.pc = 0xFFFF#16) : step s = .fault (.registerOverflow .pc { s with ir := s.byteAt s.pc.toNat }) := by
  have hinc : regInc .pc 1 { s with ir := s.byteAt s.pc.toNat } =
      .error (.registerOverflow .pc { s with ir := s.byteAt s.pc.toNat }) := by
    rw [regInc_one]
    exact if_pos hp
  simp only [step, fetchInstr, fetch, memRead_eq_ok.mpr ⟨hr, rfl⟩, bind, Except.bind, hl, hinc]

/-- An error of the operand fetch, which starts with IR set and PC past the opcode byte, is the step's (R83, R161). -/
theorem step_of_fetchOperand_error (hl : s.cfg.opTable.lookup (s.byteAt s.pc.toNat) = some e)
    (hr : s.canRead s.pc.toNat = true) (hp : s.pc.toNat + 1 ≤ 0xFFFF)
    (ho : fetchOperand (operandLength e.mode)
      { s with ir := s.byteAt s.pc.toNat, pc := BitVec.ofNat 16 (s.pc.toNat + 1) } = .error f) :
    step s = .fault f := by
  have hinc : regInc .pc 1 { s with ir := s.byteAt s.pc.toNat } =
      .ok { s with ir := s.byteAt s.pc.toNat, pc := BitVec.ofNat 16 (s.pc.toNat + 1) } := regInc_of_le hp
  simp only [step, fetchInstr, fetch, memRead_eq_ok.mpr ⟨hr, rfl⟩, bind, Except.bind, hl, hinc, ho]

/-- The step that stops at operand byte `k`: the bytes before it are read and passed, IR is set, PC is at that byte (R83, R161). -/
theorem step_of_operand_error (hl : s.cfg.opTable.lookup (s.byteAt s.pc.toNat) = some e)
    (hr : s.canReadFrom s.pc.toNat (k + 1) = true) (hk : k < operandLength e.mode) (hp : s.pc.toNat + k + 1 ≤ 0xFFFF)
    (hf : fetchByte { s with ir := s.byteAt s.pc.toNat, pc := BitVec.ofNat 16 (s.pc.toNat + k + 1) } = .error f) :
    step s = .fault f := by
  obtain ⟨hr0, hrk⟩ : s.canRead s.pc.toNat = true ∧ s.canReadFrom (s.pc.toNat + 1) k = true := by
    simpa only [State.canReadFrom, Bool.and_eq_true] using hr
  have hpc : (BitVec.ofNat 16 (s.pc.toNat + 1)).toNat = s.pc.toNat + 1 := toNat_ofNat_address (by omega)
  rw [Nat.add_right_comm] at hp hf
  refine step_of_fetchOperand_error hl hr0 (by omega) (fetchOperand_of_error (operandLength_le e.mode) hk ?_ ?_ ?_) <;>
    simp only [hpc]
  · refine (canReadFrom_congr (s := s) ?_ _ _).trans hrk
    rfl
  · exact hp
  · exact hf

end

/-- Settles O30: the opcode byte is read before anything is written. -/
theorem refusedOpcodeReadFaults : Obligations.RefusedOpcodeReadFaults := fun _ => step_of_refused

/-- Settles O33: the fetch of operand byte `k`, at the address after the bytes before it, is a refused read. -/
theorem refusedOperandReadFaults : Obligations.RefusedOperandReadFaults := by
  intro s e k hl hr hk hp hrefused
  have hpc := toNat_ofNat_address hp
  have hf := fetchByte_of_refused (s := { s with ir := s.byteAt s.pc.toNat, pc := BitVec.ofNat 16 (s.pc.toNat + k + 1) })
    (by rw [hpc]; exact hrefused)
  rw [hpc] at hf
  exact step_of_operand_error hl hr hk hp hf

/-- Settles O32: the byte that PC cannot pass is the one at 0xFFFF, the opcode byte or an operand byte. -/
theorem fetchPastTheTopFaults : Obligations.FetchPastTheTopFaults := by
  intro s e hl hover hr
  by_cases htop : s.pc = 0xFFFF#16
  · rw [step_of_top hl (hr _ (Nat.le_refl _) (by bv_omega)) htop, ← htop]
  · obtain ⟨k, hk⟩ : ∃ k, s.pc.toNat + k + 1 = 0xFFFF := ⟨0xFFFF - s.pc.toNat - 1, by bv_omega⟩
    have hread : s.canReadFrom s.pc.toNat (k + 1) = true := canReadFrom_of_forall fun a hle hlt => hr a hle (by omega)
    refine step_of_operand_error hl hread (by omega) (by omega) ?_
    rw [hk]
    exact fetchByte_of_top (hr 0xFFFF (by omega) (Nat.le_refl _)) rfl

end Sys2Proof.Machine

/-! ### What a step runs -/

namespace Sys2Proof.Machine

/-- Settles O29: the fetched state, with the length of the instruction for the opcode byte and the operand bytes. -/
theorem stepRunsTheDecodedInstruction : Obligations.StepRunsTheDecodedInstruction := fun s i hr hp hd => by
  rw [step_of_decode hr hp hd, fetched_eq, Instr.length, Nat.add_assoc]

/-- Settles O8: a step stops in the fetch stage with an error, or it is a handler's outcome. -/
theorem stepIsNeverRefused : Obligations.StepIsNeverRefused := by
  intro s r
  obtain ⟨f, hf, -⟩ | ⟨f, _, _, _, hf, -⟩ | ⟨i, n, op, hi⟩ := step_cases s
  · simp [hf]
  · simp [hf]
  · rw [hi, exec_eq_handler]
    exact finish_ne_refused _ r

end Sys2Proof.Machine

/-! ### The resolver -/

namespace Sys2Proof.Machine

section
variable {k : InstructionKind} {m : AddressingModeKind} {op : Word} {s : State}

/-- In a memory mode the source value is the byte read at the effective address (R90, R103). -/
theorem sourceValue_of_hasAddr (hm : m.hasAddr = true) :
    sourceValue k m op s = (effAddr k m op s >>= fun ea => memRead ea s) := by
  cases m with
  | implied | accumulator | immediate | relative => nomatch hm
  | _ => rfl

theorem sourceValue_of_effAddr {ea : Nat} (hm : m.hasAddr = true) (h : effAddr k m op s = .ok ea) :
    sourceValue k m op s = memRead ea s := by
  rw [sourceValue_of_hasAddr hm, h]
  rfl

theorem sourceValue_of_effAddr_error {f : Fault} (hm : m.hasAddr = true) (h : effAddr k m op s = .error f) :
    sourceValue k m op s = .error f := by
  rw [sourceValue_of_hasAddr hm, h]
  rfl

/-- The memory modes are all but Implied, Accumulator, Immediate and Relative (R103). -/
theorem hasAddr_iff : m.hasAddr = true ↔ m ∉ [.implied, .accumulator, .immediate, .relative] := by
  cases m <;> decide

/-- A mode without an effective address raises R154's error (log entry 21). -/
theorem effAddr_of_not_hasAddr (hm : m.hasAddr = false) : effAddr k m op s = .error (.unsupportedAddressingMode k m s) := by
  cases m with
  | implied | accumulator | immediate | relative => rfl
  | _ => nomatch hm

/-- The three answers of a pointer read: the number its two bytes stand for, or the refused read of either (R97, R98). -/
theorem readPointer_answers (p : Nat) (s : State) :
    (s.canRead p = true → s.canRead (p + 1) = true →
      readPointer p s = .ok ((s.byteAt p).toNat + 0x100 * (s.byteAt (p + 1)).toNat)) ∧
    (s.canRead p = false → readPointer p s = .error (.readOutOfMemory p s)) ∧
    (s.canRead p = true → s.canRead (p + 1) = false → readPointer p s = .error (.readOutOfMemory (p + 1) s)) := by
  refine ⟨fun hlo hhi => readPointer_eq_ok.mpr ⟨hlo, hhi, (toNat_wordOfBytes _ _).symm⟩, fun hlo => ?_, fun hlo hhi => ?_⟩
  · simp only [readPointer, memRead_eq_error.mpr ⟨hlo, rfl⟩, bind, Except.bind]
  · simp only [readPointer, memRead_eq_ok.mpr ⟨hlo, rfl⟩, memRead_eq_error.mpr ⟨hhi, rfl⟩, bind, Except.bind]

/-- IndirectX: the pointer at `(op + X) mod 256` is the effective address (R97). -/
theorem effAddr_indirectX : effAddr k .indirectX op s = readPointer ((op.toNat + s.x.toNat) % 0x100) s := rfl

/-- IndirectY: the pointer at `op`, plus Y (R98). -/
theorem effAddr_indirectY : effAddr k .indirectY op s = (readPointer op.toNat s >>= fun base => .ok (base + s.y.toNat)) := rfl

/-- `sext_8` is the two's-complement reading of a byte (R6). -/
theorem sext8_eq_signedByte (v : Byte) : sext8 v = signedByte v := by
  rw [sext8, signedByte, BitVec.toInt_eq_toNat_cond]
  split <;> split <;> omega

end

/-- Settles O35: each effective address is the formula of its row, and the source value is the byte read there. -/
theorem directEffectiveAddresses : Obligations.DirectEffectiveAddresses := by
  intro k op s
  have row {m : AddressingModeKind} {ea : Nat} (hm : m.hasAddr = true) (h : effAddr k m op s = .ok ea) :
      effAddr k m op s = .ok ea ∧ sourceValue k m op s = memRead ea s := ⟨h, sourceValue_of_effAddr hm h⟩
  simp only [List.forall_mem_cons]
  exact ⟨row rfl rfl, row rfl rfl, row rfl rfl, row rfl rfl, row rfl rfl, nofun⟩

/-- Settles O36: IndirectX is a pointer read, IndirectY a pointer read plus Y. -/
theorem indirectEffectiveAddresses : Obligations.IndirectEffectiveAddresses := by
  intro k op s p
  obtain ⟨hok, hlo, hhi⟩ := readPointer_answers p s
  refine ⟨?_, ?_, fun m hm ea => sourceValue_of_effAddr (hasAddr_iff.mpr ?_)⟩
  · rintro rfl
    exact ⟨hok, hlo, hhi⟩
  · rintro rfl
    rw [effAddr_indirectY]
    exact ⟨fun h h' => by rw [hok h h']; rfl, fun h => by rw [hlo h]; rfl, fun h h' => by rw [hhi h h']; rfl⟩
  · revert m
    decide

/-- Settles O37: in a memory mode the source value follows the effective address, the other modes are read off the resolver. -/
theorem sourceValueByMode : Obligations.SourceValueByMode := by
  intro k m op s
  refine ⟨?_, ?_, fun hm ea hea => ?_, fun hm f => sourceValue_of_effAddr_error hm, hasAddr_iff, effAddr_of_not_hasAddr, ?_⟩
  · rintro rfl
    exact ⟨lowByte op, rfl, toNat_lowByte op⟩
  · rintro rfl rfl
    exact ⟨lowByte s.a, sourceValue_accumulator op s, toNat_lowByte s.a⟩
  · rw [sourceValue_of_effAddr hm hea]
    exact ⟨fun h => memRead_eq_ok.mpr ⟨h, rfl⟩, fun h => memRead_eq_error.mpr ⟨h, rfl⟩, fun h => canRead_eq_false.mpr (.inl h)⟩
  · rintro (rfl | rfl | ⟨rfl, hk⟩)
    · rfl
    · rfl
    · rw [sourceValue, if_neg hk, raise]

/-- Settles O39: the two's-complement reading of the low byte. -/
theorem displacementIsSigned : Obligations.DisplacementIsSigned := by
  intro op
  rw [displacement, sext8_eq_signedByte, signedByte, toNat_lowByte]
  norm_cast

end Sys2Proof.Machine

/-! SUPPORT. Proofs of the statements of `41_arithmetic_logic.md`: ADC, BIT and ASL, from the laws of the flag computations. -/

/-! ### What a handler answers -/

namespace Sys2Proof.Machine

/-- ADC's result is an update of A and P (R110). -/
theorem adcResult_eq_with_a_p (m : Byte) (s : State) : adcResult m s = { s with
    a := BitVec.ofNat 16 ((s.a.toNat + m.toNat + s.carryIn) % 0x100), p := (adcResult m s).p } := by
  simp only [adcResult, State.setCarith, State.setZ, State.setN, setReg_a, setFlag_x, setFlag_y, setFlag_sp, setFlag_pc,
    setFlag_ir, setFlag_operand, setFlag_mem, setFlag_cfg]

/-- BIT's result is an update of P alone (R111). -/
theorem bitResult_eq_with_p (m : Byte) (s : State) : bitResult m s = { s with p := (bitResult m s).p } := rfl

/-- The flag setters of ASL update P alone (R112). -/
theorem aslFlags_eq_with_p (raw : Nat) (s : State) : aslFlags raw s = { s with p := (aslFlags raw s).p } := rfl

section
variable {i : Instr} {s : State} {m : Byte} {f : Fault} {ea : Nat}

/-- Without a source value the instruction raises the refused read, with nothing changed (R90, R155). -/
theorem exec_of_source_error (hk : i.kind = .adc ∨ i.kind = .lda ∨ i.kind = .bit) (h : instrSource i s = .error f) :
    exec i s = .fault f ∧ ∃ addr, f = .readOutOfMemory addr s := by
  refine ⟨?_, (instrSource_error hk h).2⟩
  obtain hk | hk | hk := hk <;> rw [instrSource, hk] at h
  · rw [exec_of_adc hk, adc, h]; rfl
  · rw [exec_of_lda hk, lda, h]; rfl
  · rw [exec_of_bit hk, bit, h]; rfl

/-- With a source value ADC completes with its result (R110). -/
theorem exec_adc_of_source (hk : i.kind = .adc) (h : instrSource i s = .ok m) : exec i s = .next { s with
    a := BitVec.ofNat 16 ((s.a.toNat + m.toNat + s.carryIn) % 0x100), p := (adcResult m s).p } := by
  rw [instrSource, hk] at h
  rw [← adcResult_eq_with_a_p, exec_of_adc hk, adc, h]
  rfl

/-- With a source value BIT completes with its result (R111). -/
theorem exec_bit_of_source (hk : i.kind = .bit) (h : instrSource i s = .ok m) :
    exec i s = .next { s with p := (bitResult m s).p } := by
  rw [instrSource, hk] at h
  rw [← bitResult_eq_with_p, exec_of_bit hk, bit, h]
  rfl

/-- A byte takes a number modulo 256. -/
theorem ofNat_byte_mod (n : Nat) : BitVec.ofNat 8 (n % 0x100) = BitVec.ofNat 8 n :=
  BitVec.eq_of_toNat_eq (Nat.mod_mod n _)

/-- ASL in Accumulator mode completes in every state, on the 8-bit value of A (R101, R112). -/
theorem exec_aslAccumulator (s : State) :
    exec .aslAccumulator s = .next { s with
      a := BitVec.ofNat 16 (s.a.toNat % 0x100 * 2 % 0x100), p := (aslFlags (s.a.toNat % 0x100 * 2) s).p } := by
  show finish (.ok ((aslFlags ((lowByte s.a).toNat * 2) s).setReg .a ((lowByte s.a).toNat * 2 % 0x100))) = _
  rw [aslFlags_eq_with_p, toNat_lowByte, finish_ok, setReg_a]

/-- ASL in a memory mode reads its byte first (R112). -/
theorem exec_asl_of_refused (hk : i.kind = .asl) (hm : i.mode ≠ .accumulator) (ha : instrAddr i s = .ok ea)
    (hr : s.canRead ea = false) : exec i s = .fault (.readOutOfMemory ea s) := by
  rw [instrAddr, hk] at ha
  simp only [exec_of_asl_memory hk hm, aslMemory, ha, memRead_eq_error.mpr ⟨hr, rfl⟩, bind, Except.bind, finish_error]

/-- ASL in a memory mode writes its flags, then stores twice the byte at the address it read (R112). -/
theorem exec_asl_of_read (hk : i.kind = .asl) (hm : i.mode ≠ .accumulator) (ha : instrAddr i s = .ok ea)
    (hr : s.canRead ea = true) : exec i s =
      finish (memWrite ea (BitVec.ofNat 8 ((s.byteAt ea).toNat * 2 % 0x100))
        { s with p := (aslFlags ((s.byteAt ea).toNat * 2) s).p }) := by
  rw [instrAddr, hk] at ha
  rw [← aslFlags_eq_with_p]
  simp only [exec_of_asl_memory hk hm, aslMemory, ha, memRead_eq_ok.mpr ⟨hr, rfl⟩, bind, Except.bind,
    ofNat_byte_mod]

end

end Sys2Proof.Machine

/-! ### The flags after a computation -/

namespace Sys2Proof.Machine

/-- A write of a listed flag keeps the bits outside the list (R21). -/
theorem AgreesOutside.setFlag {ks : List Nat} {s : State} {q : Byte} (h : AgreesOutside ks s.p q) {f : Flag}
    (hf : f.bit ∈ ks) (b : Bool) : AgreesOutside ks (s.setFlag f b).p q := fun k hk => by
  rw [getLsbD_setFlag, if_neg (ne_of_mem_of_not_mem hf hk).symm, h k hk]

/-- SetCarith, SetZ and SetN of one raw value write three flags and keep the other bits (R23 to R25). -/
theorem aslFlags_flags (raw : Nat) (s : State) :
    (aslFlags raw s).flag .c = decide (0xFF < raw) ∧ (aslFlags raw s).flag .z = decide (raw % 0x100 = 0) ∧
      (aslFlags raw s).flag .n = raw.testBit 7 ∧ AgreesOutside [0, 1, 7] (aslFlags raw s).p s.p := by
  have hkept : AgreesOutside [0, 1, 7] s.p s.p := fun _ _ => rfl
  simp only [aslFlags, State.setN, State.setZ, State.setCarith, flag_setFlag, reduceCtorEq, if_true, if_false, true_and]
  exact ((hkept.setFlag (by decide) _).setFlag (by decide) _).setFlag (by decide) _

/-- The flags of ADC, from its raw sum (R110): V first, then those that the sum implies. -/
theorem adcResult_flags (m : Byte) (s : State) {r : Nat} (hr : s.a.toNat + m.toNat + s.carryIn = r) :
    (adcResult m s).flag .c = decide (0xFF < r) ∧ (adcResult m s).flag .z = decide (r % 0x100 = 0) ∧
      (adcResult m s).flag .n = r.testBit 7 ∧ (adcResult m s).flag .v = adcOverflow s.a.toNat m.toNat r ∧
      AgreesOutside [0, 1, 6, 7] (adcResult m s).p s.p := by
  have hkept : AgreesOutside [0, 1, 6, 7] s.p s.p := fun _ _ => rfl
  simp only [adcResult, hr, State.setN, State.setZ, State.setCarith, flag_setReg, flag_setFlag, reduceCtorEq, if_true, if_false,
    true_and, setReg_p]
  exact (((hkept.setFlag (by decide) _).setFlag (by decide) _).setFlag (by decide) _).setFlag (by decide) _

/-- The flags of BIT, from its source value (R111). -/
theorem bitResult_flags (m : Byte) (s : State) :
    (bitResult m s).flag .n = m.getLsbD 7 ∧ (bitResult m s).flag .v = m.getLsbD 6 ∧
      (bitResult m s).flag .z = decide ((m.toNat &&& s.a.toNat) &&& 0xFF = 0) ∧
      AgreesOutside [1, 6, 7] (bitResult m s).p s.p := by
  have hkept : AgreesOutside [1, 6, 7] s.p s.p := fun _ _ => rfl
  have hz : (m.setWidth 16 &&& s.a) &&& 0x00FF#16 = 0x0000#16 ↔ (m.toNat &&& s.a.toNat) &&& 0xFF = 0 := by
    have hm : (m.setWidth 16).toNat = m.toNat := BitVec.toNat_setWidth_of_le (by decide)
    simp only [← BitVec.toNat_inj, BitVec.toNat_and, hm, BitVec.toNat_ofNat, Nat.reducePow, Nat.reduceMod]
  simp only [bitResult, flag_setFlag, reduceCtorEq, if_true, if_false, true_and, setFlag_a, hz]
  exact ((hkept.setFlag (by decide) _).setFlag (by decide) _).setFlag (by decide) _

/-! ### Signed overflow and carry -/

/-- A mask of one bit tests that bit. -/
theorem and_twoPow_bne_zero {w k : Nat} (hk : k < w) (v : BitVec w) : (v &&& BitVec.twoPow w k != 0#w) = v.getLsbD k := by
  have hne : BitVec.twoPow w k ≠ 0#w := fun h => by simpa [hk] using congrArg (BitVec.getLsbD · k) h
  rw [BitVec.and_twoPow]
  cases v.getLsbD k <;> simp [hne]

/-- ADC's test by the three sign bits: the operands agree and the result differs (R110). -/
theorem adcOverflow_eq_signBits (a m r : Nat) :
    adcOverflow a m r = (!(a.testBit 7 ^^ m.testBit 7) && (a.testBit 7 ^^ r.testBit 7)) := by
  have hmask (v : Word) : (v &&& 0x0080#16 != 0x0000#16) = v.getLsbD 7 := and_twoPow_bne_zero (k := 7) (by decide) v
  simp [adcOverflow, hmask, -BitVec.getLsbD_eq_getElem, BitVec.getLsbD_ofNat]

/-- The sign bits tell when a two's-complement sum of two bytes and a carry leaves -128 to +127 (R110). -/
theorem adcOverflow_iff_signed (a m : Byte) (c : Bool) :
    adcOverflow a.toNat m.toNat (a.toNat + m.toNat + c.toNat) = true ↔
      signedByte a + signedByte m + c.toNat < -128 ∨ 127 < signedByte a + signedByte m + c.toNat := by
  have ha := a.isLt
  have hm := m.isLt
  have hc := c.toNat_le
  simp only [adcOverflow_eq_signBits, signedByte, Nat.testBit_eq_decide_div_mod_eq]
  by_cases hsa : a.toNat < 0x80 <;> by_cases hsm : m.toNat < 0x80 <;> simp [hsa, hsm] <;> omega

/-- A sum of two bytes and a carry is its low byte and its carry out (R110). -/
theorem mod_add_carryOut {r : Nat} (hr : r < 0x200) : r % 0x100 + 0x100 * (decide (0xFF < r)).toNat = r := by
  by_cases h : 0xFF < r <;> simp [h] <;> omega

end Sys2Proof.Machine

/-! ### ADC, BIT and ASL -/

namespace Sys2Proof.Machine

/-- Settles O40: ADC's result has the flags of its raw sum; the error is a refused read. -/
theorem adcAddsWithCarry : Obligations.AdcAddsWithCarry := by
  refine ⟨by decide, fun i s hk => ⟨fun m hm => ?_, fun f => exec_of_source_error (.inl hk)⟩⟩
  intro r
  obtain ⟨hc, hz, hn, hv, hkept⟩ := adcResult_flags m s (r := r) rfl
  rw [adcOverflow_eq_signBits, BitVec.testBit_toNat, BitVec.testBit_toNat] at hv
  exact ⟨(adcResult m s).p, exec_adc_of_source hk hm, hc, hz, hn, hv, hkept⟩

/-- Settles O41: where A is an 8-bit value, ADC's sum is that of two bytes and a carry. -/
theorem adcOverflowIsSignedOverflow : Obligations.AdcOverflowIsSignedOverflow := by
  intro i s t m hk ha hm ht
  obtain rfl : adcResult m s = t := by
    simpa only [exec_adc_of_source hk hm, ← adcResult_eq_with_a_p, Host.Outcome.next.injEq] using ht
  have hbyte : (lowByte s.a).toNat = s.a.toNat := by rw [toNat_lowByte, Nat.mod_eq_of_lt (Nat.lt_succ_of_le ha)]
  obtain ⟨hc, -, -, hv, -⟩ := adcResult_flags m s rfl
  refine ⟨?_, ?_⟩
  · rw [← adcOverflow_iff_signed, hbyte, hv]
    rfl
  · have hsum : s.a.toNat + m.toNat + s.carryIn < 0x200 := by
      have hmlt := m.isLt
      have hclt : s.carryIn ≤ 1 := Bool.toNat_le _
      omega
    have hA : (adcResult m s).a.toNat = (s.a.toNat + m.toNat + s.carryIn) % 0x100 := by
      rw [adcResult_eq_with_a_p]
      exact toNat_ofNat_address (by omega)
    rw [hA, hc]
    exact mod_add_carryOut hsum

/-- Settles O42: BIT's result has the flags of its source value; the error is a refused read. -/
theorem bitTestsTheSourceValue : Obligations.BitTestsTheSourceValue :=
  ⟨rfl, rfl, fun _ s hk =>
    ⟨fun m hm => ⟨(bitResult m s).p, exec_bit_of_source hk hm, bitResult_flags m s⟩,
      fun _ => exec_of_source_error (.inr (.inr hk))⟩⟩

/-- Settles O43: the flags are those of the raw value in every mode; in a memory mode the read comes before them, the write-back
after. -/
theorem aslShiftsLeft : Obligations.AslShiftsLeft := by
  simp only [Obligations.AslShiftsLeft, Nat.shiftLeft_eq, pow_one]
  refine ⟨by decide, fun s => ⟨(aslFlags (s.a.toNat % 0x100 * 2) s).p, exec_aslAccumulator s, aslFlags_flags _ s⟩,
    fun i s ea hk hm hwf ha => ⟨exec_asl_of_refused hk hm ha, fun hr => ?_⟩⟩
  obtain ⟨hc, hz, hn, hkept⟩ := aslFlags_flags ((s.byteAt ea).toNat * 2) s
  refine ⟨_, hc, hz, hn, hkept, fun hw => ?_, fun hw => ?_⟩ <;> rw [exec_asl_of_read hk hm ha hr]
  · exact ⟨_, finish_eq_next.mpr (memWrite_eq_ok.mpr ⟨hw, rfl⟩), rfl, storesByte_write hwf ea _⟩
  · exact finish_eq_fault.mpr (memWrite_eq_error.mpr ⟨hw, rfl⟩)

end Sys2Proof.Machine

/-! SUPPORT. Proofs of the statements of `42_load_store.md`: LDA and LDX over the one result of a load, STA and STX over the one
byte write of a store. -/

/-! ### Loads -/

namespace Sys2Proof.Machine

/-- The flags of a load, from the byte loaded, whichever cell takes it (R23, R24). -/
theorem loadResult_flags (r : RegName) (m : Byte) (s : State) :
    (loadResult r m s).flag .z = decide (m = 0x00#8) ∧ (loadResult r m s).flag .n = m.getLsbD 7 ∧
      AgreesOutside [1, 7] (loadResult r m s).p s.p := by
  have hkept : AgreesOutside [1, 7] (s.setReg r m.toNat).p s.p := fun _ _ => by rw [setReg_p]
  have hz : m.toNat % 0x100 = 0 ↔ m = 0x00#8 := by
    rw [Nat.mod_eq_of_lt m.isLt]
    exact BitVec.toNat_inj (y := 0x00#8)
  simp only [loadResult, State.setZ, State.setN, flag_setFlag, reduceCtorEq, if_true, if_false, hz, BitVec.testBit_toNat, true_and]
  exact (hkept.setFlag (by decide) _).setFlag (by decide) _

/-- With a source value LDA completes with its result (R120). -/
theorem exec_lda_of_source {i : Instr} {s : State} {m : Byte} (hk : i.kind = .lda) (h : instrSource i s = .ok m) :
    exec i s = .next { s with a := m.setWidth 16, p := (loadResult .a m s).p } := by
  rw [instrSource, hk] at h
  rw [exec_of_lda hk, lda, h, ← BitVec.ofNat_toNat]
  rfl

/-- LDX completes in every state: its source value is its operand byte (R91, R121). -/
theorem exec_ldx (op : Byte) (s : State) :
    exec (.ldx op) s = .next { s with x := op.setWidth 16, p := (loadResult .x op s).p } := by
  show finish (.ok (loadResult .x (lowByte (op.setWidth 16)) s)) = _
  rw [Laws.lowByte_setWidth, ← BitVec.ofNat_toNat]
  rfl

/-- Settles O44: LDA's result has the flags of its source value; the error is a refused read. -/
theorem ldaLoadsTheSourceValue : Obligations.LdaLoadsTheSourceValue :=
  ⟨by decide, fun _ s hk =>
    ⟨fun m hm => ⟨(loadResult .a m s).p, exec_lda_of_source hk hm, loadResult_flags .a m s⟩,
      fun _ => exec_of_source_error (.inr (.inl hk))⟩⟩

/-- Settles O45: LDX's result has the flags of its operand byte; Immediate is the one mode in its row of R85. -/
theorem ldxLoadsTheImmediate : Obligations.LdxLoadsTheImmediate := by
  refine ⟨rfl, fun op s => ⟨(loadResult .x op s).p, exec_ldx op s, loadResult_flags .x op s⟩, fun m op hm => ?_⟩
  have hout : m ∉ supported .ldx := mt List.mem_singleton.mp hm
  exact selectInstr_of_none nofun (Option.not_isSome_iff_eq_none.mp (mt isSome_instrOf.mp hout))

end Sys2Proof.Machine

/-! ### Stores -/

namespace Sys2Proof.Machine

section
variable {i : Instr} {s : State} {f : Fault}

/-- The two answers of a store at a known address: the one byte of memory written, or the refused write with nothing changed
(R42, R156). -/
theorem finish_memWrite_answers (hwf : s.mem.wf = true) (ea : Nat) (v : Byte) :
    (s.canWrite ea = true →
      ∃ t, finish (memWrite ea v s) = .next t ∧ t = { s with mem := t.mem } ∧ StoresByte s t ea v) ∧
    (s.canWrite ea = false → finish (memWrite ea v s) = .fault (.writeOutOfMemory ea s)) :=
  ⟨fun hw => ⟨_, finish_eq_next.mpr (memWrite_eq_ok.mpr ⟨hw, rfl⟩), rfl, storesByte_write hwf ea v⟩,
    fun hw => finish_eq_fault.mpr (memWrite_eq_error.mpr ⟨hw, rfl⟩)⟩

/-- Without an effective address STA raises the refused pointer read, with nothing changed (R97, R98, R122). -/
theorem exec_sta_of_addr_error (hk : i.kind = .sta) (h : instrAddr i s = .error f) :
    exec i s = .fault f ∧ ∃ addr, f = .readOutOfMemory addr s := by
  refine ⟨?_, effAddr_error (mode_of_store_kind (.inl hk)) h⟩
  rw [instrAddr, hk] at h
  rw [exec_of_sta hk, sta, h]
  rfl

end

/-- Settles O46: STA is the write of the low byte of A at its effective address; without one, the refused pointer read. -/
theorem staStoresA : Obligations.StaStoresA := by
  refine ⟨by decide, fun i s hk hwf => ⟨fun ea hea => ?_, fun f => exec_sta_of_addr_error hk⟩⟩
  obtain ⟨hok, hrefused⟩ := finish_memWrite_answers hwf ea (lowByte s.a)
  rw [exec_sta hk hea]
  exact ⟨hok, hrefused, fun h => canWrite_eq_false.mpr (.inl h)⟩

/-- Settles O47: STX is the write of the low byte of X at its operand's address. -/
theorem stxStoresX : Obligations.StxStoresX := by
  refine ⟨rfl, rfl, fun i s hk hwf => ⟨stx_addr hk, ?_⟩⟩
  rw [exec_stx hk (stx_addr hk)]
  exact finish_memWrite_answers hwf i.operand.toNat (lowByte s.x)

end Sys2Proof.Machine

/-! SUPPORT. Proofs of the statements of `43_control_transfer.md`: the relative jump that JMP and the branches share, then JSR as
two pushes and an absolute jump. -/

/-! ### Relative jumps -/

namespace Sys2Proof.Machine

/-- A checked increment of PC is a jump forward: it cannot fall below 0 (R132). -/
theorem jumpsBy_regInc (s : State) (n : Nat) : JumpsBy s n (finish (regInc .pc n s)) := by
  refine ⟨fun ⟨_, hle⟩ => ?_, fun hgt => ?_, fun hlt => by omega⟩
  · rw [regInc_of_le (r := .pc) (by rw [reg_pc]; omega)]
    rfl
  · rw [regInc_of_gt (r := .pc) (by rw [reg_pc]; omega)]
    rfl

/-- A checked decrement of PC is a jump backward: it cannot pass the top (R132). -/
theorem jumpsBy_regDec (s : State) (n : Nat) : JumpsBy s (-n) (finish (regDec .pc n s)) := by
  have hpc := s.pc.isLt
  refine ⟨fun ⟨hge, _⟩ => ?_, fun hgt => by omega, fun hlt => ?_⟩
  · rw [regDec_of_le (r := .pc) (by rw [reg_pc]; omega), setReg_pc, reg_pc, finish_ok, ← sub_eq_add_neg, Int.toNat_sub]
  · rw [regDec_of_lt (r := .pc) (by rw [reg_pc]; omega)]
    rfl

/-- A relative jump is one of the two checked steps, by the sign of its displacement (R132). -/
theorem jumpsBy_relativeJump (s : State) (d : Int) : JumpsBy s d (finish (relativeJump d s)) := by
  unfold relativeJump
  split
  next hd => simpa only [Int.toNat_of_nonneg hd] using jumpsBy_regInc s d.toNat
  next hd =>
    have hneg : 0 ≤ -d := by omega
    simpa only [Int.toNat_of_nonneg hneg, neg_neg] using jumpsBy_regDec s (-d).toNat

/-- The displacement of an operand byte is the byte as two's complement (R99). -/
theorem displacement_setWidth (op : Byte) : displacement (op.setWidth 16) = signedByte op := by
  rw [displacement, Laws.lowByte_setWidth, sext8_eq_signedByte]

/-- Where the flag has the value `v`, the branch on `v` jumps and the branch on the other value changes nothing (R133 to R136). -/
theorem branchIf_answers {s : State} {f : Flag} {v : Bool} (op : Byte) (h : s.flag f = v) :
    JumpsBy s (signedByte op) (finish (branchIf f v (op.setWidth 16) s)) ∧
      finish (branchIf f (!v) (op.setWidth 16) s) = .next s := by
  rw [branchIf, branchIf, if_pos h, if_neg (by simp [h]), displacement_setWidth]
  exact ⟨jumpsBy_relativeJump s _, rfl⟩

/-- Settles O38: forward the jump is a checked increment, backward a checked decrement. -/
theorem relativeJumpIsChecked : Obligations.RelativeJumpIsChecked := jumpsBy_relativeJump

/-- Settles O48: Absolute sets PC, Relative is the relative jump by the operand byte. -/
theorem jmpJumps : Obligations.JmpJumps := by
  refine ⟨rfl, byteOf_defaultTable_jmp_relative, fun op s => ?_, fun op s => ?_⟩
  · show finish (.ok (s.setReg .pc op.toNat)) = _
    rw [setReg_pc, BitVec.ofNat_toNat, BitVec.setWidth_eq, finish_ok]
  · rw [← displacement_setWidth]
    exact jumpsBy_relativeJump s _

/-- Settles O50: BCS and BCC are the two branches on bit 0 of P, BEQ and BNE those on bit 1. -/
theorem branchesFollowTheirFlags : Obligations.BranchesFollowTheirFlags := by
  refine ⟨by decide, fun op s => ⟨fun hc => ?_, fun hc => ?_, fun hz => ?_, fun hz => ?_⟩⟩
  · exact branchIf_answers (f := .c) op hc
  · exact (branchIf_answers (f := .c) op hc).symm
  · exact branchIf_answers (f := .z) op hz
  · exact (branchIf_answers (f := .z) op hz).symm

end Sys2Proof.Machine

/-! ### JSR -/

namespace Sys2Proof.Machine

/-- The state after a completed push (R16): the byte written at the stack address, SP one less. -/
def State.pushed (s : State) (v : Byte) : State :=
  { s with sp := BitVec.ofNat 16 (s.sp.toNat - 1), mem := s.mem.write s.stackAddr v }

section
variable {s t u : State} {v w : Byte} {op : Word}

/-! #### One push -/

theorem pushByte_of_pos (hsp : 1 ≤ s.sp.toNat) (hw : s.canWrite s.stackAddr = true) : pushByte v s = .ok (s.pushed v) := by
  have hne : s.sp ≠ 0x0000#16 := fun e => by simp [e] at hsp
  simpa [hw, hne, State.pushed] using pushByte_cases v s

theorem pushByte_of_refused (hw : s.canWrite s.stackAddr = false) :
    pushByte v s = .error (.writeOutOfMemory s.stackAddr s) := by
  simpa [hw] using pushByte_cases v s

theorem pushByte_of_zero (hsp : s.sp.toNat = 0) (hw : s.canWrite s.stackAddr = true) :
    pushByte v s = .error (.registerUnderflow .sp { s with mem := s.mem.write s.stackAddr v }) := by
  have hz : s.sp = 0x0000#16 := BitVec.eq_of_toNat_eq hsp
  simpa [hw, hz] using pushByte_cases v s

/-! #### The state between the two pushes -/

/-- A push leaves the configuration alone, so the port accepts the same addresses (R42). -/
theorem canWrite_pushed (k : Nat) : (s.pushed v).canWrite k = s.canWrite k := rfl

theorem toNat_sp_pushed : (s.pushed v).sp.toNat = s.sp.toNat - 1 :=
  toNat_ofNat_address (by have := s.sp.isLt; omega)

/-- The next push goes one byte lower (R16). -/
theorem stackAddr_pushed (hsp : 1 ≤ s.sp.toNat) : (s.pushed v).stackAddr = s.stackAddr - 1 := by
  show s.cfg.stackBase.toNat + (s.pushed v).sp.toNat = s.cfg.stackBase.toNat + s.sp.toNat - 1
  rw [toNat_sp_pushed, Nat.add_sub_assoc hsp]

/-- Two pushes: SP two less, the second byte one below the first (R131). -/
theorem pushed_pushed (hsp : 1 ≤ s.sp.toNat) : (s.pushed v).pushed w =
    { s with sp := BitVec.ofNat 16 (s.sp.toNat - 2), mem := (s.pushed v).mem.write (s.stackAddr - 1) w } := by
  rw [State.pushed, stackAddr_pushed hsp, toNat_sp_pushed]
  rfl

theorem wf_pushed (hwf : s.mem.wf = true) (hw : s.canWrite s.stackAddr = true) : (s.pushed v).mem.wf = true :=
  wf_write hwf (canWrite_le hw) v

/-- Two bytes stored one after the other, at two addresses. -/
theorem StoresByte.both {a b : Nat} (hab : a ≠ b) (h : StoresByte s t a v) (g : StoresByte t u b w) :
    u.byteAt a = v ∧ u.byteAt b = w ∧ ∀ k, k ≠ a → k ≠ b → u.byteAt k = s.byteAt k :=
  ⟨(g.2 a hab).trans h.1, g.1, fun k ha hb => (g.2 k hb).trans (h.2 k ha)⟩

/-- Memory after both pushes of JSR, whichever way the second one ends (R131). -/
theorem storesBytes_pushed (hwf : s.mem.wf = true) (hsp : 1 ≤ s.sp.toNat) (hw : s.canWrite s.stackAddr = true)
    (hu : u.mem = (s.pushed v).mem.write (s.stackAddr - 1) w) :
    u.byteAt s.stackAddr = v ∧ u.byteAt (s.stackAddr - 1) = w ∧
      ∀ k, k ≠ s.stackAddr → k ≠ s.stackAddr - 1 → u.byteAt k = s.byteAt k := by
  have hpos : 1 ≤ s.stackAddr := Nat.le_add_left_of_le hsp
  have h := StoresByte.both (by omega) (storesByte_write hwf s.stackAddr v)
    (storesByte_write (s := s.pushed v) (wf_pushed hwf hw) (s.stackAddr - 1) w)
  simpa only [byteAt_congr (s := { s.pushed v with mem := (s.pushed v).mem.write (s.stackAddr - 1) w }) hu] using h

/-! #### The lines of JSR -/

/-- An error of the first push ends JSR. -/
theorem exec_jsr_of_push_error {f : Fault} (h : pushByte (highByte s.pc) s = .error f) : exec (.jsr op) s = .fault f := by
  show finish (pushByte (highByte s.pc) s >>= _) = _
  rw [h]
  rfl

/-- After the first push JSR goes on with the second, one byte lower, and the jump. -/
theorem exec_jsr_of_push (hsp : 1 ≤ s.sp.toNat) (hw : s.canWrite s.stackAddr = true) :
    exec (.jsr op) s = finish (pushByte (lowByte s.pc) (s.pushed (highByte s.pc)) >>= jumpAbsolute op) := by
  show finish (pushByte (highByte s.pc) s >>= _) = _
  rw [pushByte_of_pos hsp hw]
  rfl

end

/-- Settles O49: a clause for each way the two pushes can end. -/
theorem jsrPushesThenJumps : Obligations.JsrPushesThenJumps := by
  refine ⟨rfl, fun op s top hwf htop => ?_⟩
  obtain rfl : top = s.stackAddr := htop
  refine ⟨fun hsp hw hw' => ?_, fun hw => ?_, fun hsp hw => ?_, fun hsp hw hw' => ?_, fun hsp hw hw' => ?_⟩
  · have hpos : 1 ≤ s.sp.toNat := by omega
    rw [← stackAddr_pushed (v := highByte s.pc) hpos, ← canWrite_pushed (v := highByte s.pc)] at hw'
    rw [exec_jsr_of_push hpos hw, pushByte_of_pos (by rw [toNat_sp_pushed]; omega) hw', pushed_pushed hpos]
    refine ⟨_, rfl, ?_, storesBytes_pushed hwf hpos hw rfl⟩
    simp
  · exact exec_jsr_of_push_error (pushByte_of_refused hw)
  · exact ⟨_, exec_jsr_of_push_error (pushByte_of_zero hsp hw), rfl, storesByte_write hwf s.stackAddr _⟩
  · rw [exec_jsr_of_push hsp hw, pushByte_of_refused (by rwa [stackAddr_pushed hsp, canWrite_pushed]), stackAddr_pushed hsp]
    exact ⟨_, rfl, rfl, storesByte_write hwf s.stackAddr _⟩
  · have hpos : 1 ≤ s.sp.toNat := hsp.ge
    rw [exec_jsr_of_push hpos hw, pushByte_of_zero (by rw [toNat_sp_pushed, hsp]) (by rwa [stackAddr_pushed hpos, canWrite_pushed]),
      stackAddr_pushed hpos]
    refine ⟨_, rfl, ?_, storesBytes_pushed hwf hpos hw rfl⟩
    simp [State.pushed, hsp]

end Sys2Proof.Machine

/-! SUPPORT. Proofs of the statements of `44_flag_nop.md`: CLC and SEC as the two writes of flag C, NOP as no write at all. -/

namespace Sys2Proof.Machine

/-- Clearing C masks bit 0 out of P (R20, R21). -/
theorem setFlag_c_false (s : State) : s.setFlag .c false = { s with p := s.p &&& 0xFE#8 } := rfl

/-- Setting C puts bit 0 into P (R20, R21). -/
theorem setFlag_c_true (s : State) : s.setFlag .c true = { s with p := s.p ||| 0x01#8 } := rfl

/-- CLC completes in every state with the write of C = 0 (R140). -/
theorem exec_clc (s : State) : exec .clc s = .next (s.setFlag .c false) := rfl

/-- SEC completes in every state with the write of C = 1 (R141). -/
theorem exec_sec (s : State) : exec .sec s = .next (s.setFlag .c true) := rfl

/-- NOP completes in every state and leaves it as it was (R142). -/
theorem exec_nop (s : State) : exec .nop s = .next s := rfl

/-- Settles O51: CLC and SEC are the two writes of flag C, and a write of C is a mask on bit 0 of P. -/
theorem flagInstructionsAndNop : Obligations.FlagInstructionsAndNop := by
  refine ⟨rfl, rfl, rfl, fun s => ⟨?_, ?_, exec_nop s⟩⟩
  · rw [exec_clc, setFlag_c_false]
  · rw [exec_sec, setFlag_c_true]

end Sys2Proof.Machine

/-! SUPPORT. Proofs of the statements of `60_exceptions.md`: the errors of the fetch stage, the errors an instruction raises with
the state each leaves, and the end of a run. -/

/-! ### Errors before dispatch -/

namespace Sys2Proof.Machine

/-- A mode that a kind with a handler does not accept is rejected by name (R85). -/
theorem selectInstr_of_unsupported {k : InstructionKind} {m : AddressingModeKind} {op : Word}
    (hk : ∀ name, k ≠ .other name) (hm : m ∉ supported k) : selectInstr k m op = .error (.unsupportedAddressingMode k m) :=
  selectInstr_of_none hk (Option.not_isSome_iff_eq_none.mp (mt isSome_instrOf.mp hm))

/-- An entry that selects no instruction stops the step in the fetched state (R80, R86). -/
theorem step_of_unselected {s : State} {e : OperationCode} {op : Word} {err : SelectError}
    (hl : s.cfg.opTable.lookup (s.byteAt s.pc.toNat) = some e)
    (hr : s.canReadFrom s.pc.toNat (1 + operandLength e.mode) = true)
    (hp : s.pc.toNat + 1 + operandLength e.mode ≤ 0xFFFF)
    (ho : takeOperand (operandLength e.mode) (s.bytesFrom (s.pc.toNat + 1) (operandLength e.mode)) = some (op, []))
    (hs : selectInstr e.kind e.mode op = .error err) :
    step s = .fault (selectFault err (s.fetched (operandLength e.mode) op)) := by
  simp only [step, fetchInstr_of_fetched hl hr hp ho, hs]

/-- Settles O31: the table is looked up before anything is written. -/
theorem unpopulatedByteFaults : Obligations.UnpopulatedByteFaults := fun _ => step_of_unpopulated

/-- Settles O34: the two errors of the selection, each raised in the fetched state. -/
theorem unselectedEntryFaultsAfterFetch : Obligations.UnselectedEntryFaultsAfterFetch := by
  refine ⟨by decide, fun s e op hl hr hp ho => ⟨fun name hk => ?_, fun hk hm => ?_⟩⟩
  · have hs : selectInstr e.kind e.mode op = .error (.unimplementedInstruction name) := by rw [hk]; rfl
    exact step_of_unselected hl hr hp ho hs
  · exact step_of_unselected hl hr hp ho (selectInstr_of_unsupported hk hm)

end Sys2Proof.Machine

/-! ### The errors of an instruction -/

namespace Sys2Proof.Machine

section
variable {i : Instr} {s : State} {f : Fault}

/-- A memory mode whose effective address can be refused reads a pointer (R97, R98). -/
theorem mode_of_effAddr_error {k : InstructionKind} {mode : AddressingModeKind} {op : Word} (hm : mode.hasAddr = true)
    (h : effAddr k mode op s = .error f) : mode = .indirectX ∨ mode = .indirectY := by
  cases mode with
  | indirectX => exact .inl rfl
  | indirectY => exact .inr rfl
  | implied | accumulator | immediate | relative => nomatch hm
  | zeroPage | zeroPageX | absolute | absoluteX | absoluteY => nomatch h

/-- The instructions that complete in every state (R112, R121, R130, R140 to R142). -/
theorem exec_completes (h : i.kind ∈ [.ldx, .clc, .sec, .nop] ∨ (i.kind = .asl ∧ i.mode = .accumulator) ∨
    (i.kind = .jmp ∧ i.mode = .absolute)) : ∃ t, exec i s = .next t := by
  rw [exec_eq_handler]
  obtain hk | ⟨hk, hm⟩ | ⟨hk, hm⟩ := h
  · simp only [List.mem_cons, List.not_mem_nil, or_false] at hk
    obtain hk | hk | hk | hk := hk <;> rw [hk] <;> exact ⟨_, rfl⟩
  · rw [hk, hm]
    exact ⟨_, rfl⟩
  · rw [hk, hm]
    exact ⟨_, rfl⟩

/-- What a push raises: the refused write, or the decrement of SP at 0 (R16). -/
theorem pushByte_error {v : Byte} (h : pushByte v s = .error f) :
    (∃ addr, f = .writeOutOfMemory addr f.after) ∨ f = .registerUnderflow .sp f.after := by
  obtain ⟨-, -, e⟩ | ⟨-, e⟩ | ⟨-, -, e⟩ := pushByte_cases v s <;> rw [e] at h <;> cases h
  · exact .inl ⟨_, rfl⟩
  · exact .inr rfl

/-- A sequence of two operations raises what the first one raises, or what the second one raises after it (R161). -/
theorem bind_eq_error {α β : Type} {x : Except Fault α} {g : α → Except Fault β} :
    (x >>= g) = .error f ↔ x = .error f ∨ ∃ a, x = .ok a ∧ g a = .error f := by
  cases x <;> simp [bind, Except.bind]

/-- JSR raises what one of its two pushes raises (R131). -/
theorem jsr_error {op : Word} (h : jsr op s = .error f) : ∃ v t, pushByte v t = .error f := by
  obtain h1 | ⟨t, -, h⟩ := bind_eq_error.mp h
  · exact ⟨_, _, h1⟩
  · obtain h2 | ⟨u, -, h⟩ := bind_eq_error.mp h
    · exact ⟨_, _, h2⟩
    · nomatch h

/-- A branch raises nothing but what its relative jump raises (R133 to R136). -/
theorem branchIf_error {g : Flag} {v : Bool} {op : Word} (h : branchIf g v op s = .error f) :
    relativeJump (displacement op) s = .error f := by
  unfold branchIf at h
  split at h
  · exact h
  · nomatch h

/-- The errors of a relative jump, with PC at the end it ran into (R132). -/
theorem JumpsBy.fault {d : Int} (h : JumpsBy s d (.fault f)) :
    f = .registerOverflow .pc { s with pc := 0xFFFF#16 } ∨ f = .registerUnderflow .pc { s with pc := 0x0000#16 } := by
  obtain ⟨hin, hover, hunder⟩ := h
  by_cases hneg : (s.pc.toNat : Int) + d < 0
  · exact .inr (Host.Outcome.fault.inj (hunder hneg))
  · by_cases htop : (s.pc.toNat : Int) + d ≤ 0xFFFF
    · nomatch hin ⟨by omega, htop⟩
    · exact .inl (Host.Outcome.fault.inj (hover (by omega)))

section
variable (h : exec i s = .fault f)
include h

/-- ADC, LDA and BIT raise the refused read of their source value, with nothing changed (R90, R161). -/
theorem exec_fault_of_source (hk : i.kind = .adc ∨ i.kind = .lda ∨ i.kind = .bit) :
    i.mode ≠ .immediate ∧ ∃ addr, f = .readOutOfMemory addr s := by
  cases hs : instrSource i s with
  | ok m =>
    obtain hk | hk | hk := hk
    · rw [exec_adc_of_source hk hs] at h; cases h
    · rw [exec_lda_of_source hk hs] at h; cases h
    · rw [exec_bit_of_source hk hs] at h; cases h
  | error g =>
    obtain rfl : g = f := by rw [(exec_of_source_error hk hs).1] at h; exact Host.Outcome.fault.inj h
    exact instrSource_error hk hs

/-- STA raises the refused write or, in the indirect modes, the refused pointer read, with nothing changed (R122, R161). -/
theorem exec_fault_of_sta (hk : i.kind = .sta) : (∃ addr, f = .writeOutOfMemory addr s) ∨
    ((i.mode = .indirectX ∨ i.mode = .indirectY) ∧ ∃ addr, f = .readOutOfMemory addr s) := by
  cases ha : instrAddr i s with
  | ok ea =>
    rw [exec_sta hk ha] at h
    exact .inl ⟨ea, (memWrite_eq_error.mp (finish_eq_fault.mp h)).2⟩
  | error g =>
    obtain ⟨hg, hread⟩ := exec_sta_of_addr_error hk ha
    obtain rfl : g = f := Host.Outcome.fault.inj (hg.symm.trans h)
    exact .inr ⟨mode_of_effAddr_error (mode_of_store_kind (.inl hk)) ha, hread⟩

/-- STX raises the refused write, with nothing changed (R123, R161). -/
theorem exec_fault_of_stx (hk : i.kind = .stx) : ∃ addr, f = .writeOutOfMemory addr s := by
  rw [exec_stx hk (stx_addr hk)] at h
  exact ⟨_, (memWrite_eq_error.mp (finish_eq_fault.mp h)).2⟩

/-- ASL raises the refused read with nothing changed, or the refused write-back with its three flags written (R112, R161). -/
theorem exec_fault_of_asl (hk : i.kind = .asl) : (∃ addr, f = .readOutOfMemory addr s) ∨
    (∃ addr raw, f = .writeOutOfMemory addr { s with p := (aslFlags raw s).p }) := by
  have hm : i.mode ≠ .accumulator := fun hm => by
    obtain ⟨t, ht⟩ := exec_completes (s := s) (.inr (.inl ⟨hk, hm⟩))
    nomatch ht.symm.trans h
  obtain ⟨ea, ha⟩ := asl_addr_ok (s := s) hk hm
  cases hr : s.canRead ea with
  | false => exact .inl ⟨ea, Host.Outcome.fault.inj (h.symm.trans (exec_asl_of_refused hk hm ha hr))⟩
  | true =>
    rw [exec_asl_of_read hk hm ha hr] at h
    exact .inr ⟨ea, _, (memWrite_eq_error.mp (finish_eq_fault.mp h)).2⟩

/-- JSR raises a refused write or the underflow of SP (R131). -/
theorem exec_fault_of_jsr (hk : i.kind = .jsr) :
    (∃ addr, f = .writeOutOfMemory addr f.after) ∨ f = .registerUnderflow .sp f.after := by
  rw [exec_eq_handler, hk] at h
  obtain ⟨v, t, hpush⟩ := jsr_error (finish_eq_fault.mp h)
  exact pushByte_error hpush

/-- JMP and the branches raise what their relative jump raises (R130, R133 to R136). -/
theorem exec_fault_of_jump (hk : i.kind ∈ [.jmp, .bcs, .bcc, .beq, .bne]) :
    f = .registerOverflow .pc { s with pc := 0xFFFF#16 } ∨ f = .registerUnderflow .pc { s with pc := 0x0000#16 } := by
  suffices hjump : relativeJump (displacement i.operand) s = .error f from
    JumpsBy.fault (finish_eq_fault.mpr hjump ▸ jumpsBy_relativeJump s _)
  rw [exec_eq_handler, finish_eq_fault] at h
  simp only [List.mem_cons, List.not_mem_nil, or_false] at hk
  obtain hk | hk | hk | hk | hk := hk <;> rw [hk] at h
  · simp only [handler] at h
    split at h
    · nomatch h
    · exact h
  all_goals exact branchIf_error h

end

end

/-- Settles O52: the instructions that complete in every state raise nothing, and each other kind has its errors. -/
theorem handlerErrorsByInstruction : Obligations.HandlerErrorsByInstruction := by
  intro i s f h
  have hraises : ¬ ∃ t, exec i s = .next t := fun ⟨t, ht⟩ => nomatch ht.symm.trans h
  refine ⟨⟨fun hk => hraises (exec_completes (.inl hk)), ?_, fun hk => hraises (exec_completes (.inr (.inr hk)))⟩,
    fun hk => ?_, fun hk => ?_, fun hk => ?_, fun hk => ?_, exec_fault_of_jsr h, fun hk => ?_⟩
  · rintro rfl
    exact hraises ⟨_, exec_aslAccumulator s⟩
  · obtain ⟨hm, addr, rfl⟩ := exec_fault_of_source h (by simpa using hk)
    exact ⟨hm, addr, rfl⟩
  · obtain ⟨addr, rfl⟩ | ⟨addr, raw, rfl⟩ := exec_fault_of_asl h hk
    · exact .inl ⟨addr, rfl⟩
    · exact .inr ⟨addr, rfl⟩
  · obtain ⟨addr, rfl⟩ | ⟨hm, addr, rfl⟩ := exec_fault_of_sta h hk
    · exact .inl ⟨addr, rfl⟩
    · exact .inr ⟨hm, addr, rfl⟩
  · obtain ⟨addr, rfl⟩ := exec_fault_of_stx h hk
    exact ⟨addr, rfl⟩
  · obtain rfl | rfl := exec_fault_of_jump h hk
    · exact .inl rfl
    · exact .inr rfl

/-- Settles O53: each error of an instruction comes with the state it leaves. -/
theorem faultedStateByInstruction : Obligations.FaultedStateByInstruction := by
  refine fun i s f h => ⟨fun hk => ?_, fun hk => ?_, exec_fault_of_jump h⟩
  · obtain hk | hk | hk : (i.kind = .adc ∨ i.kind = .lda ∨ i.kind = .bit) ∨ i.kind = .sta ∨ i.kind = .stx := by
      simp only [List.mem_cons, List.not_mem_nil, or_false] at hk
      tauto
    · obtain ⟨-, _, rfl⟩ := exec_fault_of_source h hk
      rfl
    · obtain ⟨_, rfl⟩ | ⟨-, _, rfl⟩ := exec_fault_of_sta h hk <;> rfl
    · obtain ⟨_, rfl⟩ := exec_fault_of_stx h hk
      rfl
  · obtain ⟨_, rfl⟩ | ⟨_, raw, rfl⟩ := exec_fault_of_asl h hk
    · exact ⟨rfl, fun _ _ => rfl, fun _ _ => rfl⟩
    · obtain ⟨-, -, -, hkept⟩ := aslFlags_flags raw s
      exact ⟨rfl, hkept, nofun⟩

end Sys2Proof.Machine

/-! ### The end of a run -/

namespace Sys2Proof.Machine

/-- A run taken up again for `n` more steps: it goes on only where it was still going on (R163, R195). -/
def RunEnd.resume (n : Nat) : RunEnd → RunEnd
  | .running s => runSteps n s
  | ended => ended

section
variable {s t : State}

/-- The scheduler calls no step at HALT_PC (R195 b). -/
theorem runSteps_of_atHalt (n : Nat) (h : s.atHalt = true) : runSteps n s = .halted s := by
  cases n <;> rw [runSteps, if_pos h]

/-- A run of `m + n` steps is the run of `m` steps, taken up again for `n` more. -/
theorem runSteps_add (m n : Nat) (s : State) : runSteps (m + n) s = (runSteps m s).resume n := by
  induction m generalizing s with
  | zero =>
    by_cases h : s.atHalt = true
    · rw [runSteps_of_atHalt _ h, runSteps_of_atHalt _ h]
      rfl
    · rw [Nat.zero_add, runSteps, if_neg h]
      rfl
  | succ m ih =>
    by_cases h : s.atHalt = true
    · rw [runSteps_of_atHalt _ h, runSteps_of_atHalt _ h]
      rfl
    · rw [Nat.add_right_comm, runSteps, runSteps, if_neg h, if_neg h]
      cases step s with
      | next s' => exact ih s'
      | fault f => rfl
      | refused r => rfl

/-- A run halts nowhere but at HALT_PC (R195 b). -/
theorem atHalt_of_halted {n : Nat} (h : runSteps n s = .halted t) : t.atHalt = true := by
  induction n generalizing s with
  | zero =>
    by_cases hs : s.atHalt = true
    · rw [runSteps_of_atHalt _ hs] at h
      exact RunEnd.halted.inj h ▸ hs
    · rw [runSteps, if_neg hs] at h
      nomatch h
  | succ n ih =>
    by_cases hs : s.atHalt = true
    · rw [runSteps_of_atHalt _ hs] at h
      exact RunEnd.halted.inj h ▸ hs
    · rw [runSteps, if_neg hs] at h
      cases hstep : step s with
      | next s' => exact ih (by simpa only [hstep] using h)
      | fault f => simp only [hstep, reduceCtorEq] at h
      | refused r => simp only [hstep, reduceCtorEq] at h

end

/-- Settles O55, from the composition of runs: only a run that is still going on takes further steps. -/
theorem runsComposeAndEndsAreFinal : Obligations.RunsComposeAndEndsAreFinal := by
  refine fun m n s => ⟨fun t h => ?_, fun t h => ⟨?_, of_decide_eq_true (atHalt_of_halted h)⟩, fun f h => ?_⟩ <;>
    rw [runSteps_add, h] <;> rfl

end Sys2Proof.Machine

/-! ### The launch, and the halt -/

namespace Sys2Proof.Machine

/-- Settles O1: each register, the flags, memory and the configuration of the launch state are fields of its definition. -/
theorem launchTakesItsParameters : Obligations.LaunchTakesItsParameters :=
  fun _ _ => ⟨rfl, rfl, rfl, rfl, rfl, rfl, fun _ => rfl, rfl⟩

/-- Settles O54: the scheduler tests for HALT_PC before the first step, whatever the bound on the steps. -/
theorem runStopsAtHaltPc : Obligations.RunStopsAtHaltPc :=
  fun _ n h => runSteps_of_atHalt n (decide_eq_true h)

end Sys2Proof.Machine
